-- ==== Sys2Proof/Word.lean ====
section
/-! DEFINITION. The word types of the core: bytes and 16-bit words (spec 00_scope.md R10, 30_encoding.md R70). -/

namespace Sys2Proof

/-- One byte: a memory cell, a general register, a timer, an immediate NN. -/
abbrev Byte := BitVec 8

/-- One 16-bit value: an instruction word, PC, I, a call-stack entry. -/
abbrev Word := BitVec 16

/-- `zext_16(v)` of R10: a byte widened with zeros. -/
abbrev zext16 (v : Byte) : Word := v.setWidth 16

end Sys2Proof
end

