-- ==== Sys2Proof/Decode.lean ====
section
/-! DEFINITION. Decoding, total on all 65536 words (30_encoding.md R76, R77) and on any list of bytes, and the
encoder written from the formats of R72. -/

namespace Sys2Proof

/-- `w[hi:lo]` of 00_scope.md R9: the bits hi down to lo, as an unsigned number. -/
def bits (w : Word) (hi lo : Nat) : Nat := w.toNat / 2 ^ lo % 2 ^ (hi + 1 - lo)

/-! The fields of 30_encoding.md R71. -/

/-- `op = w[15:12]`. -/
def fieldOp (w : Word) : Nat := bits w 15 12

/-- `X = w[11:8]`. -/
def fieldX (w : Word) : Reg := Fin.ofNat 16 (bits w 11 8)

/-- `Y = w[7:4]`. -/
def fieldY (w : Word) : Reg := Fin.ofNat 16 (bits w 7 4)

/-- `N = w[3:0]`. -/
def fieldN (w : Word) : Fin 16 := Fin.ofNat 16 (bits w 3 0)

/-- `NN = w[7:0]`. -/
def fieldNN (w : Word) : Byte := BitVec.ofNat 8 (bits w 7 0)

/-- `NNN = w[11:0]`. -/
def fieldNNN (w : Word) : BitVec 12 := BitVec.ofNat 12 (bits w 11 0)

/-- The 8 group, keyed on `w[3:0]` (R83). -/
def decodeGroup8 (w : Word) : Instr :=
  match (fieldN w).val with
  | 0x0 => .ldReg (fieldX w) (fieldY w)
  | 0x1 => .orReg (fieldX w) (fieldY w)
  | 0x2 => .andReg (fieldX w) (fieldY w)
  | 0x3 => .xorReg (fieldX w) (fieldY w)
  | 0x4 => .addReg (fieldX w) (fieldY w)
  | 0x5 => .sub (fieldX w) (fieldY w)
  | 0x6 => .shr (fieldX w) (fieldY w)
  | 0x7 => .subn (fieldX w) (fieldY w)
  | 0xE => .shl (fieldX w) (fieldY w)
  | _ => .unsupported w

/-- The E group, keyed on `w[7:0]` (R83). -/
def decodeGroupE (w : Word) : Instr :=
  if bits w 7 0 = 0x9E then .skp (fieldX w)
  else if bits w 7 0 = 0xA1 then .sknp (fieldX w)
  else .unsupported w

/-- The F group, keyed on `w[7:0]` (R83). -/
def decodeGroupF (w : Word) : Instr :=
  if bits w 7 0 = 0x07 then .ldVxDt (fieldX w)
  else if bits w 7 0 = 0x0A then .ldVxK (fieldX w)
  else if bits w 7 0 = 0x15 then .ldDt (fieldX w)
  else if bits w 7 0 = 0x18 then .ldSt (fieldX w)
  else if bits w 7 0 = 0x1E then .addI (fieldX w)
  else if bits w 7 0 = 0x29 then .ldF (fieldX w)
  else if bits w 7 0 = 0x33 then .ldB (fieldX w)
  else if bits w 7 0 = 0x55 then .stRegs (fieldX w)
  else if bits w 7 0 = 0x65 then .ldRegs (fieldX w)
  else .unsupported w

/-- The decode function of R77: top nibble first, then the secondary key of R76. -/
def decodeWord (w : Word) : Instr :=
  match fieldOp w with
  | 0x0 => if w = 0x00E0 then .cls else if w = 0x00EE then .ret else .sys (fieldNNN w)
  | 0x1 => .jp (fieldNNN w)
  | 0x2 => .call (fieldNNN w)
  | 0x3 => .seImm (fieldX w) (fieldNN w)
  | 0x4 => .sneImm (fieldX w) (fieldNN w)
  | 0x5 => if bits w 3 0 = 0 then .seReg (fieldX w) (fieldY w) else .unsupported w
  | 0x6 => .ldImm (fieldX w) (fieldNN w)
  | 0x7 => .addImm (fieldX w) (fieldNN w)
  | 0x8 => decodeGroup8 w
  | 0x9 => if bits w 3 0 = 0 then .sneReg (fieldX w) (fieldY w) else .unsupported w
  | 0xA => .ldI (fieldNNN w)
  | 0xB => .jpo (fieldNNN w)
  | 0xC => .rnd (fieldX w) (fieldNN w)
  | 0xD => .drw (fieldX w) (fieldY w) (fieldN w)
  | 0xE => decodeGroupE w
  | _ => decodeGroupF w

/-- Why a list of bytes is no instruction: the only reason is that it is too short (R70, R80). -/
inductive DecodeReject where
  /-- Fewer than the two bytes of an instruction word are left. Safe: nothing is decoded. -/
  | truncated
  deriving DecidableEq, Repr

/-- The word of two bytes, big-endian: the byte at PC is bits 15:8 (20_memory.md R51, R54). -/
def wordOfBytes (hi lo : Byte) : Word := BitVec.ofNat 16 (hi.toNat * 256 + lo.toNat)

/-- Decode the instruction at the head of a list of bytes; the bytes after it are left over. -/
def decode : List Byte → Except DecodeReject (Instr × List Byte)
  | hi :: lo :: rest => .ok (decodeWord (wordOfBytes hi lo), rest)
  | [_] => .error .truncated
  | [] => .error .truncated

/-! The layouts of R72. -/

/-- Format NNN: op:4, NNN:12. -/
def layoutNNN (op : Nat) (nnn : BitVec 12) : Word := BitVec.ofNat 16 (op * 4096 + nnn.toNat)

/-- Formats XNN and X: op:4, X:4, then a byte. -/
def layoutXNN (op : Nat) (x : Reg) (nn : Byte) : Word := BitVec.ofNat 16 (op * 4096 + x.val * 256 + nn.toNat)

/-- Formats XY and XYN: op:4, X:4, Y:4, then a nibble. -/
def layoutXYN (op : Nat) (x y n : Fin 16) : Word :=
  BitVec.ofNat 16 (op * 4096 + x.val * 256 + y.val * 16 + n.val)

/-- The word of an instruction, from the patterns of R77. -/
def encodeWord : Instr → Word
  | .cls => 0x00E0
  | .ret => 0x00EE
  | .sys nnn => layoutNNN 0x0 nnn
  | .jp nnn => layoutNNN 0x1 nnn
  | .call nnn => layoutNNN 0x2 nnn
  | .seImm x nn => layoutXNN 0x3 x nn
  | .sneImm x nn => layoutXNN 0x4 x nn
  | .seReg x y => layoutXYN 0x5 x y 0x0
  | .ldImm x nn => layoutXNN 0x6 x nn
  | .addImm x nn => layoutXNN 0x7 x nn
  | .ldReg x y => layoutXYN 0x8 x y 0x0
  | .orReg x y => layoutXYN 0x8 x y 0x1
  | .andReg x y => layoutXYN 0x8 x y 0x2
  | .xorReg x y => layoutXYN 0x8 x y 0x3
  | .addReg x y => layoutXYN 0x8 x y 0x4
  | .sub x y => layoutXYN 0x8 x y 0x5
  | .shr x y => layoutXYN 0x8 x y 0x6
  | .subn x y => layoutXYN 0x8 x y 0x7
  | .shl x y => layoutXYN 0x8 x y 0xE
  | .sneReg x y => layoutXYN 0x9 x y 0x0
  | .ldI nnn => layoutNNN 0xA nnn
  | .jpo nnn => layoutNNN 0xB nnn
  | .rnd x nn => layoutXNN 0xC x nn
  | .drw x y n => layoutXYN 0xD x y n
  | .skp x => layoutXNN 0xE x 0x9E
  | .sknp x => layoutXNN 0xE x 0xA1
  | .ldVxDt x => layoutXNN 0xF x 0x07
  | .ldVxK x => layoutXNN 0xF x 0x0A
  | .ldDt x => layoutXNN 0xF x 0x15
  | .ldSt x => layoutXNN 0xF x 0x18
  | .addI x => layoutXNN 0xF x 0x1E
  | .ldF x => layoutXNN 0xF x 0x29
  | .ldB x => layoutXNN 0xF x 0x33
  | .stRegs x => layoutXNN 0xF x 0x55
  | .ldRegs x => layoutXNN 0xF x 0x65
  | .unsupported w => w

/-- The two bytes of a word, high byte first (20_memory.md R54). -/
def bytesOfWord (w : Word) : List Byte := [BitVec.ofNat 8 (bits w 15 8), BitVec.ofNat 8 (bits w 7 0)]

/-- The bytes of an instruction as memory holds them. -/
def encode (i : Instr) : List Byte := bytesOfWord (encodeWord i)

/-- The instruction word of a row of spec/opcode_table.json whose bits are `w`: bits above `nbits` are 0. -/
def tableWord (nbits w : Nat) : Word := BitVec.ofNat 16 (w % 2 ^ nbits)

/-- What the decoder reads from the bytes of that word. -/
def decodeTableWord (nbits w : Nat) : Option Instr :=
  match decode (bytesOfWord (tableWord nbits w)) with
  | .ok (i, _) => some i
  | .error _ => none

end Sys2Proof
end

