-- ==== Sys2Proof/Config.lean ====
section
/-! DEFINITION. What an implementation or a session fixes: the sizes of 00_scope.md R7, the dialects and
session parameters of R8, the configuration fields of 70_reset_and_hazards.md R241, and the one free value of
the core, the random byte of 41_alu.md R134. -/

namespace Sys2Proof

/-- The active dialect (10_state.md R37). -/
inductive Dialect where
  | cosmacvip
  | chip48
  | superchip
  deriving DecidableEq, Repr

/-- The parameter BNNN_CHIP48 (40_flow.md R110): what BNNN does under CHIP48. -/
inductive JumpChip48 where
  | fault
  | sourceNoOp
  | offsetV0
  | offsetVX
  deriving DecidableEq, Repr

/-- The session configuration (00_scope.md R8): fixed from one reset to the next, written by no instruction. -/
structure SessionConfig where
  dialect     : Dialect
  throttle    : Bool
  cpuPeriod   : Option Nat
  timerPeriod : Nat
  framePeriod : Nat
  font        : Vector Byte 80
  bnnnChip48  : JumpChip48
  deriving DecidableEq, Repr

/-- The configuration field values a reset receives (70_reset_and_hazards.md R241). -/
structure ConfigFields where
  enableDelay  : Int
  frequencyCpu : Int
  scaleFactor  : Int
  frameRate    : Int
  chipMode     : BitVec 8
  deriving DecidableEq, Repr

/-- The parameters of a session that the configuration fields do not give (00_scope.md R8): CLOCK_HZ
(60_exceptions.md R227), the timer period (`none`: its default, one sixtieth of a second), FONT, BNNN_CHIP48. -/
structure SessionParams where
  clockHz     : Nat
  timerPeriod : Option Nat
  font        : Vector Byte 80
  bnnnChip48  : JumpChip48
  deriving DecidableEq, Repr

/-- Quirk axis (b) of 10_state.md R38: the register an 8-group shift reads. -/
inductive ShiftSource where
  | vx
  | vy
  deriving DecidableEq, Repr

/-- Quirk axis (c) of 10_state.md R38: the register BNNN adds. -/
inductive JumpSource where
  | v0
  | vx
  deriving DecidableEq, Repr

/-- The fields R241 can reject; ConfigParseError records one of them (60_exceptions.md R201). -/
inductive ConfigField where
  | chipMode
  | frequencyCpu
  | frameRate
  deriving DecidableEq, Repr

/-- MEM_SIZE of R7: the addresses are 0..4095. -/
abbrev memSize : Nat := 4096

/-- STACK_CAP of R7. -/
abbrev stackCap : Nat := 255

/-- FONT_BASE of R7. -/
abbrev fontBase : Nat := 0x50

/-- PROG_BASE of R7, the reset entry point (20_memory.md R57). -/
abbrev progBase : Nat := 0x200

/-- The random byte of the n-th CXNN: a free value, any byte, under no law (41_alu.md R134). DESIGN CHOICE of
form, log 1: an opaque function of a counter in State; nothing in Lean can evaluate it. -/
opaque Config.randomByte : Nat → Byte

end Sys2Proof
end

