-- ==== Sys2Proof/Machine/Session.lean ====
section
/-! DEFINITION. How a session's configuration comes about: the default FONT (20_memory.md R58), the periods
(60_exceptions.md R227), the configuration check of reset (70_reset_and_hazards.md R241), and the session that
State.reset opens (log 4). -/

namespace Sys2Proof.Machine

/-- Glyphs 0..7 of the default FONT of R58, row 0 first. -/
def glyphsLow : List Byte :=
  [0xF0, 0x90, 0x90, 0x90, 0xF0] ++ [0x20, 0x60, 0x20, 0x20, 0x70] ++
  [0xF0, 0x10, 0xF0, 0x80, 0xF0] ++ [0xF0, 0x10, 0xF0, 0x10, 0xF0] ++
  [0x90, 0x90, 0xF0, 0x10, 0x10] ++ [0xF0, 0x80, 0xF0, 0x10, 0xF0] ++
  [0xF0, 0x80, 0xF0, 0x90, 0xF0] ++ [0xF0, 0x10, 0x20, 0x40, 0x40]

/-- Glyphs 8..F of the default FONT of R58. -/
def glyphsHigh : List Byte :=
  [0xF0, 0x90, 0xF0, 0x90, 0xF0] ++ [0xF0, 0x90, 0xF0, 0x10, 0xF0] ++
  [0xF0, 0x90, 0xF0, 0x90, 0x90] ++ [0xE0, 0x90, 0xE0, 0x90, 0xE0] ++
  [0xF0, 0x80, 0x80, 0x80, 0xF0] ++ [0xE0, 0x90, 0x90, 0x90, 0xE0] ++
  [0xF0, 0x80, 0xF0, 0x80, 0xF0] ++ [0xF0, 0x80, 0xF0, 0x80, 0x80]

/-- The default FONT (R58, log 10: the bytes are the spec's, from general knowledge). -/
def defaultFont : Vector Byte 80 := ⟨(glyphsLow ++ glyphsHigh).toArray, rfl⟩

/-- ROM_MAX of 00_scope.md R7 (90_conflicts.md C3): 3583 bytes. -/
def romMax : Nat := 0xFFF - 0x200

/-- A period for a positive rate in Hz: rounded down to whole clock units, at least 1 (60_exceptions.md R227). -/
def periodOf (clockHz : Nat) (rate : Int) : Nat := max 1 (clockHz / rate.toNat)

/-- The dialect a CHIP_MODE selects: exactly one of 1, 2, 4 (R241). -/
def dialectOfMode (mode : BitVec 8) : Option Dialect :=
  if mode = 1 then some .cosmacvip
  else if mode = 2 then some .chip48
  else if mode = 4 then some .superchip
  else none

/-- The configuration of a session whose fields are accepted (R241, R227). -/
def sessionConfig (d : Dialect) (f : ConfigFields) (p : SessionParams) : SessionConfig where
  dialect     := d
  throttle    := f.enableDelay != 0
  cpuPeriod   := if 0 < f.frequencyCpu then some (periodOf p.clockHz f.frequencyCpu) else none
  timerPeriod := match p.timerPeriod with
    | none => periodOf p.clockHz 60
    | some t => max 1 t
  framePeriod := periodOf p.clockHz f.frameRate
  font        := p.font
  bnnnChip48  := p.bnnnChip48

/-- The configuration check of R241. Where several fields are bad the first in R241's order is recorded (DESIGN
CHOICE, log 12). -/
def openSession (f : ConfigFields) (p : SessionParams) : Except ConfigField SessionConfig :=
  match dialectOfMode f.chipMode with
  | none => .error .chipMode
  | some d =>
    if f.frequencyCpu < 0 then .error .frequencyCpu
    else if f.frameRate ≤ 0 then .error .frameRate
    else .ok (sessionConfig d f p)

/-- The fields State.reset's session is opened with (DESIGN CHOICE, log 4). -/
def resetFields : ConfigFields where
  enableDelay  := 0
  frequencyCpu := 0
  scaleFactor  := 1
  frameRate    := 60
  chipMode     := 1

/-- The parameters State.reset's session is opened with (DESIGN CHOICE, logs 4, 10, 17). -/
def resetParams : SessionParams where
  clockHz     := 60
  timerPeriod := none
  font        := defaultFont
  bnnnChip48  := .fault

/-- The configuration of State.reset (log 4). -/
def resetConfig : SessionConfig := sessionConfig .cosmacvip resetFields resetParams

end Sys2Proof.Machine
end

