-- ==== Sys2Proof/Machine/State.lean ====
section
/-! DEFINITION. The state of the core (10_state.md R20), its faults and diagnostics (60_exceptions.md R201, R202),
the ports of 00_scope.md R17 as plain data, and the state after reset (R44). -/

namespace Sys2Proof.Machine

/-- The faults of 60_exceptions.md R201, with what each records. -/
inductive Fault where
  /-- An access outside 0..4095: raised by the fetch and by DRW, LD_B, ST_regs, LD_regs (20_memory.md R51 to R53).
  Records the first out-of-range address, the instruction address, and the word when the fetch succeeded. Safe: the
  spec stops here too. -/
  | memoryBoundsError (address : Nat) (instruction : Word) (word : Option Word)
  /-- BNNN under CHIP48 when BNNN_CHIP48 = Fault: raised by JPO (40_flow.md R110). Safe: the spec's own default,
  which gives the word no meaning. -/
  | undefinedJumpOffset (instruction : Word) (word : Word)
  /-- A rejected configuration: taken by reset (70_reset_and_hazards.md R241), raised by no instruction. Safe: the
  session runs nothing. -/
  | configParseError (field : ConfigField)
  deriving DecidableEq, Repr

/-- Reasons for which an instruction has no meaning here. -/
inductive Refusal where
  /-- An instruction whose meaning is not written yet: raised by Dispatch alone. Safe: nothing runs. No arm raises
  it. -/
  | notModelled (mnemonic : String)
  deriving DecidableEq, Repr

/-- The diagnostics of 60_exceptions.md R202, with what each carries. -/
inductive Diagnostic where
  | unsupportedOpcode (instruction : Word) (word : Word)
  | callStackOverflow (instruction : Word)
  | callStackUnderflow (instruction : Word)
  | romTooLarge (length : Nat)
  deriving DecidableEq, Repr

/-- `status` (10_state.md R40). -/
inductive Status where
  | running
  | faulted (f : Fault)
  | quit
  deriving DecidableEq, Repr

/-- `KW`, the key-wait state (10_state.md R35). -/
inductive KeyWait where
  | idle
  | waitingForPress
  | waitingForRelease (k : Fin 16) (released : Bool)
  deriving DecidableEq, Repr

/-- An edge of the `keyEdge` port: a press or a release of a key code 0..15 (44_keys_timers.md R180, R181). -/
inductive KeyEdge where
  | press (k : Fin 16)
  | release (k : Fin 16)
  deriving DecidableEq, Repr

/-- What the environment gives one pass: how far the clock went on since the last sample (so that no sample goes
backwards, 60_exceptions.md R227, R228), the edges reported since the last pass in order, and quit. -/
structure PassInput where
  advance : Nat
  edges   : List KeyEdge
  quit    : Bool
  deriving DecidableEq, Repr

/-- What the `reset` port carries (70_reset_and_hazards.md R240): the ROM bytes, the configuration and the clock
sample, the last as an advance like a pass's. -/
structure ResetRequest where
  advance : Nat
  rom     : List Byte
  fields  : ConfigFields
  params  : SessionParams
  deriving DecidableEq, Repr

/-- One thing the environment does (60_exceptions.md R228). -/
inductive Input where
  | pass (p : PassInput)
  | reset (r : ResetRequest)
  deriving DecidableEq, Repr

/-- The MemoryImage (20_memory.md R50): address and byte pairs, addresses rising, none equal to the byte that an
unlisted address reads as. -/
abbrev Memory := List Host.Cell

/-- The display buffer `D[px][py]` (10_state.md R33): 64 columns of 32 pixels. -/
abbrev Display := Vector (Vector Bool 32) 64

/-- The state record of 10_state.md R20, with the session configuration and the ports. -/
structure State where
  /-- `mem` -/
  mem       : Memory
  /-- `V[0..15]` -/
  v         : Vector Byte 16
  /-- `I` -/
  i         : Word
  /-- `PC` -/
  pc        : Word
  /-- `DT` -/
  dt        : Byte
  /-- `ST` -/
  st        : Byte
  /-- `S[0..254]` -/
  stack     : Vector Word stackCap
  /-- `SP`, the number of entries in use; at most 255 (R30) -/
  sp        : Nat
  /-- `D` -/
  display   : Display
  /-- `K[0..15]`: pressed or not -/
  keys      : Vector Bool 16
  /-- `KW` -/
  kw        : KeyWait
  /-- `TONE`, shown by the `tone` port -/
  tone      : Bool
  /-- `lastTimer`, `lastFrame`, `lastCpu` (R39) -/
  lastTimer : Nat
  lastFrame : Nat
  lastCpu   : Nat
  /-- `status`; its fault is what the `fault` port carries -/
  status    : Status
  /-- The session configuration (00_scope.md R8): a parameter, written by reset only. -/
  cfg       : SessionConfig
  /-- The latest sample of the `clock` port (60_exceptions.md R227). -/
  clock     : Nat
  /-- What the environment does next, oldest first; when it is empty the environment is quiet (log 2). -/
  inputs    : List Input
  /-- How many random bytes were drawn: the model's own counter for the free value of CXNN (log 1). -/
  draws     : Nat
  /-- The `diag` port: the diagnostics of this session in the order reported (60_exceptions.md R204). -/
  diag      : List Diagnostic
  /-- The `frame` port: the frames of this session in the order emitted (60_exceptions.md R223). -/
  frames    : List Display
  deriving DecidableEq, Repr

/-- A display with every pixel unset. -/
def Display.clear : Display := Vector.replicate 64 (Vector.replicate 32 false)

/-- The reset values of 10_state.md R44 for a session with configuration `cfg` that starts at clock sample `now`,
before FONT and ROM are installed. S[0..254] is unspecified there: zero is a DESIGN CHOICE (log 7). -/
def State.initial (cfg : SessionConfig) (now : Nat) : State where
  mem       := []
  v         := Vector.replicate 16 0
  i         := 0
  pc        := 0x0200
  dt        := 0
  st        := 0
  stack     := Vector.replicate stackCap 0
  sp        := 0
  display   := Display.clear
  keys      := Vector.replicate 16 false
  kw        := .idle
  tone      := false
  lastTimer := now
  lastFrame := now
  lastCpu   := now
  status    := .running
  cfg       := cfg
  clock     := now
  inputs    := []
  draws     := 0
  diag      := []
  frames    := []

/-- The machine right after reset, with an empty ROM, the session of log 4 and clock sample 0. Its memory lists
nothing: an unlisted address reads as the reset contents, the default FONT and zeros (Memory.unlisted, log 9). -/
def State.reset : State := State.initial resetConfig 0

end Sys2Proof.Machine
end

