-- ==== Sys2Proof/Machine/Ops.lean ====
section
/-! DEFINITION. The shared operations over memory, registers, the call stack and the diagnostics, the fetch, the
bounds check, and taking a fault (20_memory.md, 10_state.md, 60_exceptions.md R203). -/

namespace Sys2Proof.Machine

/-- What a meaning answers. -/
abbrev Result := Host.Outcome State Fault Refusal

/-! ## Memory -/

/-- What an unlisted address reads as: the reset contents under the default FONT and an empty ROM (10_state.md R44,
20_memory.md R57, R58; log 9). -/
def Memory.unlisted (a : Nat) : Byte :=
  if fontBase ≤ a then defaultFont.toList.getD (a - fontBase) 0 else 0

/-- The byte at an address. -/
def Memory.read : Memory → Nat → Byte
  | [], a => Memory.unlisted a
  | (k, b) :: rest, a => if k = a then b else Memory.read rest a

/-- Store a byte, keeping the canonical form. -/
def Memory.write : Memory → Nat → Byte → Memory
  | [], a, b => if b = Memory.unlisted a then [] else [(a, b)]
  | (k, c) :: rest, a, b =>
    if a < k then (if b = Memory.unlisted a then (k, c) :: rest else (a, b) :: (k, c) :: rest)
    else if a = k then (if b = Memory.unlisted a then rest else (a, b) :: rest)
    else (k, c) :: Memory.write rest a b

/-- The canonical form from address `lo` on: addresses rising, inside the address space, no entry equal to what an
unlisted address reads as. -/
def Memory.wfFrom : Nat → Memory → Bool
  | _, [] => true
  | lo, (k, b) :: rest => decide (lo ≤ k) && decide (k < memSize) && b != Memory.unlisted k && Memory.wfFrom (k + 1) rest

/-- The canonical form. -/
def Memory.wf (m : Memory) : Bool := Memory.wfFrom 0 m

/-- `count` bytes from address `a` up. -/
def Memory.readRange (m : Memory) (a : Nat) : Nat → List Byte
  | 0 => []
  | n + 1 => Memory.read m a :: Memory.readRange m (a + 1) n

/-- Store bytes from address `a` up, the first at the lowest address (20_memory.md R54). -/
def Memory.writeRange (m : Memory) (a : Nat) : List Byte → Memory
  | [] => m
  | b :: rest => Memory.writeRange (Memory.write m a b) (a + 1) rest

/-- The byte of the state's memory at an address. -/
def State.readByte (s : State) (a : Nat) : Byte := Memory.read s.mem a

/-! ## Registers -/

/-- `V[x]`. -/
def State.reg (s : State) (x : Reg) : Byte := s.v[x.val]

/-- `V[x] <- b`. No register is hardwired (10_state.md R21). -/
def State.setReg (s : State) (x : Reg) (b : Byte) : State := { s with v := s.v.set x.val b }

/-- Registers from number `k` up take the bytes of a list, V`k` the first (FX65). -/
def setRegsFrom (v : Vector Byte 16) (k : Nat) : List Byte → Vector Byte 16
  | [] => v
  | b :: rest => setRegsFrom (v.setIfInBounds k b) (k + 1) rest

/-- `PC <- target`. -/
def State.setPc (s : State) (target : Word) : State := { s with pc := target }

/-- `I <- a`. -/
def State.setI (s : State) (a : Word) : State := { s with i := a }

/-- `a = (PC - 2) mod 2^16`: the address of the executing instruction, whose fetch has advanced PC (40_flow.md). -/
def State.instrAddress (s : State) : Word := s.pc - 2

/-! ## Diagnostics -/

/-- `report E(info)`: the diagnostic goes to the `diag` output in order; nothing else changes (60_exceptions.md
R204). -/
def State.report (s : State) (d : Diagnostic) : State := { s with diag := s.diag ++ [d] }

/-- The codes of 60_exceptions.md R202. -/
def Diagnostic.code : Diagnostic → Nat
  | .unsupportedOpcode _ _ => 0x01
  | .callStackOverflow _ => 0x02
  | .callStackUnderflow _ => 0x03
  | .romTooLarge _ => 0x04

/-- The codes of 60_exceptions.md R201. -/
def Fault.code : Fault → Nat
  | .memoryBoundsError _ _ _ => 0x10
  | .undefinedJumpOffset _ _ => 0x11
  | .configParseError _ => 0x12

/-! ## The call stack -/

/-- `Push(a)`: `none` is the failure CallStackOverflow, which changes nothing (10_state.md R31). -/
def State.push (s : State) (a : Word) : Option State :=
  if stackCap ≤ s.sp then none
  else some { s with stack := s.stack.setIfInBounds s.sp a, sp := s.sp + 1 }

/-- `Pop()`: `none` is the failure CallStackUnderflow, which changes nothing (10_state.md R32). -/
def State.pop (s : State) : Option (Word × State) :=
  if s.sp = 0 then none
  else some (s.stack[s.sp - 1]?.getD 0, { s with sp := s.sp - 1 })

/-! ## Faults, bounds and fetch -/

/-- Taking a fault at the instruction address `a` (60_exceptions.md R203): PC is that address, `status` holds the
fault, nothing else is written. There is no handler and no return (R200, R207): the one way out is the reset of
Reset.lean. -/
def State.takeFault (s : State) (a : Word) (f : Fault) : State := { s with pc := a, status := .faulted f }

/-- `raise f` in an instruction (00_scope.md R12): the fault is taken at the instruction's address, to which PC is set
back; the next state is the one R203 describes (log 14). -/
def State.raise (s : State) (f : Fault) : Result := .next (s.takeFault s.instrAddress f)

/-- The bounds check of an instruction that accesses `count` bytes from I up: it fails with the first out-of-range
address before anything is written (20_memory.md R52, R53); otherwise the instruction goes on. -/
def accessFromI (instr : Instr) (count : Nat) (s : State) (go : Result) : Result :=
  if count ≠ 0 ∧ 4095 < s.i.toNat + (count - 1) then
    s.raise (.memoryBoundsError (max s.i.toNat 4096) s.instrAddress (some (encodeWord instr)))
  else go

/-- The fetch of 20_memory.md R51: the big-endian word at PC, and the state with PC advanced. PC + 1 is computed
without wrap. The address a fault records is the pseudocode's: PC where PC is above 4095, else PC + 1; for PC = 0xFFFF
R51's prose names 0x10000 instead (DEDUCED, log 22). -/
def fetch (s : State) : Except Fault (Word × State) :=
  if 4095 < s.pc.toNat + 1 then
    .error (.memoryBoundsError (if 4095 < s.pc.toNat then s.pc.toNat else s.pc.toNat + 1) s.pc none)
  else
    .ok (wordOfBytes (s.readByte s.pc.toNat) (s.readByte (s.pc.toNat + 1)), s.setPc (s.pc + 2))

/-- What the `fault` port carries (60_exceptions.md R203). -/
def State.faultPort (s : State) : Option Fault :=
  match s.status with
  | .faulted f => some f
  | .running => none
  | .quit => none

end Sys2Proof.Machine
end

