-- ==== Sys2Proof/Machine/Operands.lean ====
section
/-! DEFINITION. Operand forms: the quirk table (10_state.md R38), the source of a shift, the offset of BNNN, the key
of EX9E and EXA1, glyph addresses and decimal digits. -/

namespace Sys2Proof.Machine

/-- Quirk axis (a): 8XY1, 8XY2 and 8XY3 clear VF. -/
def logicClearsVF : Dialect → Bool
  | .cosmacvip => true
  | .chip48 => false
  | .superchip => false

/-- Quirk axis (b): the register 8XY6 and 8XYE shift. -/
def shiftSource : Dialect → ShiftSource
  | .cosmacvip => .vy
  | .chip48 => .vx
  | .superchip => .vx

/-- Quirk axis (c): the register BNNN adds; `none` is "undefined" (BNNN_CHIP48 decides). -/
def jumpOffset : Dialect → Option JumpSource
  | .cosmacvip => some .v0
  | .chip48 => none
  | .superchip => some .vx

/-- Quirk axis (d): FX55 and FX65 advance I. -/
def memIncrementsI : Dialect → Bool
  | .cosmacvip => true
  | .chip48 => false
  | .superchip => false

/-- The source register of 8XY6 and 8XYE (41_alu.md R129). -/
def shiftReg (d : Dialect) (x y : Reg) : Reg :=
  match shiftSource d with
  | .vy => y
  | .vx => x

/-- An address immediate NNN, zero-extended (30_encoding.md R73). -/
def addressOf (nnn : BitVec 12) : Word := nnn.setWidth 16

/-- The x field of BNNN: the top nibble of its NNN (40_flow.md R109). -/
def jumpReg (nnn : BitVec 12) : Reg := Fin.ofNat 16 (nnn.toNat / 256)

/-- The offset BNNN adds, given the register it takes (40_flow.md R109). -/
def jumpAmount (src : JumpSource) (nnn : BitVec 12) (s : State) : Word :=
  match src with
  | .v0 => zext16 (s.reg 0)
  | .vx => zext16 (s.reg (jumpReg nnn))

/-- `pressed(v) = (v < 16) and K[v]` (44_keys_timers.md R180). -/
def State.pressed (s : State) (v : Byte) : Bool :=
  if h : v.toNat < 16 then s.keys[v.toNat] else false

/-- The address of the glyph for the low nibble of a byte (42_index_memory.md R142). -/
def glyphAddress (v : Byte) : Word := 0x50 + 5 * zext16 (v &&& 0x0F)

/-- Hundreds, tens and ones of a byte (42_index_memory.md R143). -/
def decimalDigits (v : Byte) : List Byte :=
  [BitVec.ofNat 8 (v.toNat / 100), BitVec.ofNat 8 (v.toNat / 10 % 10), BitVec.ofNat 8 (v.toNat % 10)]

/-- The values of V0..V`x`, V0 first (42_index_memory.md R144). -/
def State.regsUpTo (s : State) (x : Reg) : List Byte := s.v.toList.take (x.val + 1)

/-- I after FX55 or FX65: `I + x + 1` where the dialect advances it (42_index_memory.md R144, R145). -/
def State.indexAfter (s : State) (x : Reg) : Word :=
  if memIncrementsI s.cfg.dialect then s.i + BitVec.ofNat 16 (x.val + 1) else s.i

end Sys2Proof.Machine
end

