-- ==== Sys2Proof/Machine/Flags.lean ====
section
/-! DEFINITION. The flag computations of 41_alu.md: each gives the 8-bit result and the byte that goes to VF. The
flag is written last (R120), so it survives when the destination is VF. -/

namespace Sys2Proof.Machine

/-- 8XY4: the sum and its carry (R127). -/
def addWithCarry (a b : Byte) : Byte × Byte :=
  let s : Word := zext16 a + zext16 b
  (s.setWidth 8, if 255 < s.toNat then 1 else 0)

/-- 8XY5 and 8XY7: the difference `a - b` and no-borrow, bit 8 of `(a | 0x100) - b` (R128, R130). -/
def subWithNoBorrow (a b : Byte) : Byte × Byte :=
  let d : Word := (zext16 a ||| 0x100) - zext16 b
  (d.setWidth 8, if d.getLsbD 8 then 1 else 0)

/-- 8XY6: shift right by one and the bit shifted out (R129). -/
def shiftRightOut (v : Byte) : Byte × Byte := (v >>> 1, v &&& 1)

/-- 8XYE: shift left by one and the bit shifted out (R131). -/
def shiftLeftOut (v : Byte) : Byte × Byte := (v <<< 1, v >>> 7)

/-- Write a result to V[x] and then its flag to VF (R120). -/
def State.setRegAndFlag (s : State) (x : Reg) (r : Byte × Byte) : State := (s.setReg x r.1).setReg vf r.2

/-- Write a logic result to V[x] and then clear VF where the dialect does (R124). -/
def State.setRegLogic (s : State) (x : Reg) (r : Byte) : State :=
  if logicClearsVF s.cfg.dialect then (s.setReg x r).setReg vf 0 else s.setReg x r

/-- The flag of DXYN (43_display.md R163). -/
def collisionFlag (c : Bool) : Byte := if c then 1 else 0

end Sys2Proof.Machine
end

