-- ==== Sys2Proof/Machine/Alu.lean ====
section
/-! DEFINITION. Register loads, arithmetic, logic and the random byte (41_alu.md). -/

namespace Sys2Proof.Machine

/-- `Draw()` (R134): a free byte, and the state that has drawn it (log 1). -/
def State.draw (s : State) : Byte × State := (Config.randomByte s.draws, { s with draws := s.draws + 1 })

/-- LD Vx, nn (R121). -/
def execLdImm (x : Reg) (nn : Byte) (s : State) : Result := .next (s.setReg x nn)

/-- ADD Vx, nn (R122): no flag. -/
def execAddImm (x : Reg) (nn : Byte) (s : State) : Result := .next (s.setReg x (s.reg x + nn))

/-- LD Vx, Vy (R123). -/
def execLdReg (x y : Reg) (s : State) : Result := .next (s.setReg x (s.reg y))

/-- OR Vx, Vy (R124). -/
def execOrReg (x y : Reg) (s : State) : Result := .next (s.setRegLogic x (s.reg x ||| s.reg y))

/-- AND Vx, Vy (R125). -/
def execAndReg (x y : Reg) (s : State) : Result := .next (s.setRegLogic x (s.reg x &&& s.reg y))

/-- XOR Vx, Vy (R126). -/
def execXorReg (x y : Reg) (s : State) : Result := .next (s.setRegLogic x (s.reg x ^^^ s.reg y))

/-- ADD Vx, Vy (R127). -/
def execAddReg (x y : Reg) (s : State) : Result := .next (s.setRegAndFlag x (addWithCarry (s.reg x) (s.reg y)))

/-- SUB Vx, Vy (R128). -/
def execSub (x y : Reg) (s : State) : Result := .next (s.setRegAndFlag x (subWithNoBorrow (s.reg x) (s.reg y)))

/-- SHR Vx, Vy (R129). -/
def execShr (x y : Reg) (s : State) : Result :=
  .next (s.setRegAndFlag x (shiftRightOut (s.reg (shiftReg s.cfg.dialect x y))))

/-- SUBN Vx, Vy (R130). -/
def execSubn (x y : Reg) (s : State) : Result := .next (s.setRegAndFlag x (subWithNoBorrow (s.reg y) (s.reg x)))

/-- SHL Vx, Vy (R131). -/
def execShl (x y : Reg) (s : State) : Result :=
  .next (s.setRegAndFlag x (shiftLeftOut (s.reg (shiftReg s.cfg.dialect x y))))

/-- RND Vx, nn (R135): one draw per execution. -/
def execRnd (x : Reg) (nn : Byte) (s : State) : Result :=
  let (r, t) := s.draw
  .next (t.setReg x (r &&& nn))

end Sys2Proof.Machine
end

