-- ==== Sys2Proof/Machine/Flow.lean ====
section
/-! DEFINITION. Control transfer, skips and the unsupported word (40_flow.md, 30_encoding.md R78). PC already holds
the executing instruction's address plus 2. -/

namespace Sys2Proof.Machine

/-- `PC <- (PC + 2) mod 2^16` if the condition holds (R100). -/
def State.skipIf (s : State) (c : Bool) : State := if c then s.setPc (s.pc + 2) else s

/-- CALL and SYS (R104): push PC and jump, or report the overflow and fall through. -/
def callTo (target : Word) (s : State) : Result :=
  match s.push s.pc with
  | none => .next (s.report (.callStackOverflow s.instrAddress))
  | some t => .next (t.setPc target)

/-- BNNN with a known offset register (R109). -/
def jumpWithOffset (src : JumpSource) (nnn : BitVec 12) (s : State) : Result :=
  .next (s.setPc (addressOf nnn + jumpAmount src nnn s))

/-- RET (R101). -/
def execRet (s : State) : Result :=
  match s.pop with
  | none => .next (s.report (.callStackUnderflow s.instrAddress))
  | some (a, t) => .next (t.setPc a)

/-- SYS nnn (R102): exactly CALL. -/
def execSys (nnn : BitVec 12) (s : State) : Result := callTo (addressOf nnn) s

/-- JP nnn (R103). -/
def execJp (nnn : BitVec 12) (s : State) : Result := .next (s.setPc (addressOf nnn))

/-- CALL nnn (R104). -/
def execCall (nnn : BitVec 12) (s : State) : Result := callTo (addressOf nnn) s

/-- SE Vx, nn (R105). -/
def execSeImm (x : Reg) (nn : Byte) (s : State) : Result := .next (s.skipIf (s.reg x == nn))

/-- SNE Vx, nn (R106). -/
def execSneImm (x : Reg) (nn : Byte) (s : State) : Result := .next (s.skipIf (s.reg x != nn))

/-- SE Vx, Vy (R107). -/
def execSeReg (x y : Reg) (s : State) : Result := .next (s.skipIf (s.reg x == s.reg y))

/-- SNE Vx, Vy (R108). -/
def execSneReg (x y : Reg) (s : State) : Result := .next (s.skipIf (s.reg x != s.reg y))

/-- JPO nnn (R109): the dialect's offset register; under CHIP48 as BNNN_CHIP48 selects (R110). -/
def execJpo (nnn : BitVec 12) (s : State) : Result :=
  match jumpOffset s.cfg.dialect with
  | some src => jumpWithOffset src nnn s
  | none =>
    match s.cfg.bnnnChip48 with
    | .fault => s.raise (.undefinedJumpOffset s.instrAddress (encodeWord (.jpo nnn)))
    | .sourceNoOp => .next s
    | .offsetV0 => jumpWithOffset .v0 nnn s
    | .offsetVX => jumpWithOffset .vx nnn s

/-- A word that matches no listed pattern (30_encoding.md R78): a no-op with a diagnostic. -/
def execUnsupported (w : Word) (s : State) : Result := .next (s.report (.unsupportedOpcode s.instrAddress w))

end Sys2Proof.Machine
end

