-- ==== Sys2Proof/Machine/Index.lean ====
section
/-! DEFINITION. The index register and the memory transfers (42_index_memory.md). -/

namespace Sys2Proof.Machine

/-- LD I, nnn (R140). -/
def execLdI (nnn : BitVec 12) (s : State) : Result := .next (s.setI (addressOf nnn))

/-- ADD I, Vx (R141): no flag, no masking. -/
def execAddI (x : Reg) (s : State) : Result := .next (s.setI (s.i + zext16 (s.reg x)))

/-- LD F, Vx (R142). -/
def execLdF (x : Reg) (s : State) : Result := .next (s.setI (glyphAddress (s.reg x)))

/-- LD B, Vx (R143). -/
def execLdB (x : Reg) (s : State) : Result :=
  accessFromI (.ldB x) 3 s
    (.next { s with mem := s.mem.writeRange s.i.toNat (decimalDigits (s.reg x)) })

/-- LD [I], Vx (R144). -/
def execStRegs (x : Reg) (s : State) : Result :=
  accessFromI (.stRegs x) (x.val + 1) s
    (.next { s with mem := s.mem.writeRange s.i.toNat (s.regsUpTo x), i := s.indexAfter x })

/-- LD Vx, [I] (R145). -/
def execLdRegs (x : Reg) (s : State) : Result :=
  accessFromI (.ldRegs x) (x.val + 1) s
    (.next { s with v := setRegsFrom s.v 0 (s.mem.readRange s.i.toNat (x.val + 1)), i := s.indexAfter x })

end Sys2Proof.Machine
end

