-- ==== Sys2Proof/Machine/Keys.lean ====
section
/-! DEFINITION. The keypad, the key wait and the timer instructions (44_keys_timers.md). -/

namespace Sys2Proof.Machine

/-- The key-wait state after a press edge (R181). -/
def KeyWait.onPress (kw : KeyWait) (k : Fin 16) : KeyWait :=
  match kw with
  | .waitingForPress => .waitingForRelease k false
  | .idle => .idle
  | .waitingForRelease j r => .waitingForRelease j r

/-- The key-wait state after a release edge (R181): only the matching key counts. -/
def KeyWait.onRelease (kw : KeyWait) (k : Fin 16) : KeyWait :=
  match kw with
  | .waitingForRelease j false => .waitingForRelease j (decide (j = k))
  | .waitingForRelease j true => .waitingForRelease j true
  | .idle => .idle
  | .waitingForPress => .waitingForPress

/-- One key edge (R181). -/
def State.deliverEdge (s : State) : KeyEdge → State
  | .press k => { s with keys := s.keys.set k.val true, kw := s.kw.onPress k }
  | .release k => { s with keys := s.keys.set k.val false, kw := s.kw.onRelease k }

/-- Key edges in the order reported (R181). -/
def State.deliverEdges (s : State) (edges : List KeyEdge) : State := edges.foldl State.deliverEdge s

/-- SKP Vx (R182). -/
def execSkp (x : Reg) (s : State) : Result := .next (s.skipIf (s.pressed (s.reg x)))

/-- SKNP Vx (R183). -/
def execSknp (x : Reg) (s : State) : Result := .next (s.skipIf (!s.pressed (s.reg x)))

/-- LD Vx, DT (R184). -/
def execLdVxDt (x : Reg) (s : State) : Result := .next (s.setReg x s.dt)

/-- LD DT, Vx (R185). -/
def execLdDt (x : Reg) (s : State) : Result := .next { s with dt := s.reg x }

/-- LD ST, Vx (R186): TONE is not written. -/
def execLdSt (x : Reg) (s : State) : Result := .next { s with st := s.reg x }

/-- LD Vx, K (R187): hold PC on this instruction until a press and its release have been delivered. -/
def execLdVxK (x : Reg) (s : State) : Result :=
  match s.kw with
  | .idle => .next { s with kw := .waitingForPress, pc := s.pc - 2 }
  | .waitingForPress => .next (s.setPc (s.pc - 2))
  | .waitingForRelease _ false => .next (s.setPc (s.pc - 2))
  | .waitingForRelease k true => .next ({ s with kw := .idle }.setReg x (BitVec.ofNat 8 k.val))

end Sys2Proof.Machine
end

