-- ==== Sys2Proof/Machine/Screen.lean ====
section
/-! DEFINITION. The display buffer and its instructions (43_display.md). -/

namespace Sys2Proof.Machine

/-- `D[px][py]`; false outside the grid. -/
def Display.pixel (d : Display) (px py : Nat) : Bool :=
  if h : px < 64 ∧ py < 32 then d[px][py] else false

/-- `D[px][py] <- b`; nothing outside the grid. -/
def Display.setPixel (d : Display) (px py : Nat) (b : Bool) : Display :=
  if h : px < 64 ∧ py < 32 then d.set px (d[px].set py b) else d

/-- One row of DrawSprite (R162): the columns `ps` of the sprite byte, left to right, stopping at the right edge.
`acc` is the display so far and whether a pixel went from set to unset. -/
def drawRow (byte : Byte) (x0 py : Nat) : List Nat → Display × Bool → Display × Bool
  | [], acc => acc
  | p :: ps, acc =>
    if 64 ≤ x0 + p then acc
    else
      let b := byte.getLsbD (7 - p)
      let old := acc.1.pixel (x0 + p) py
      drawRow byte x0 py ps (acc.1.setPixel (x0 + p) py (old ^^ b), acc.2 || (b && old))

/-- The rows of DrawSprite (R162) from display row `py` down, stopping at the bottom edge. -/
def drawRows (x0 : Nat) : Nat → List Byte → Display × Bool → Display × Bool
  | _, [], acc => acc
  | py, byte :: rest, acc =>
    if 32 ≤ py then acc
    else drawRows x0 (py + 1) rest (drawRow byte x0 py [0, 1, 2, 3, 4, 5, 6, 7] acc)

/-- DrawSprite (R162): only the anchor wraps; the sprite clips at the right and bottom edges. -/
def drawSprite (d : Display) (x y : Byte) (bytes : List Byte) : Display × Bool :=
  drawRows (x.toNat % 64) (y.toNat % 32) bytes (d, false)

/-- CLS (R160, R161). -/
def execCls (s : State) : Result := .next { s with display := Display.clear }

/-- DRW Vx, Vy, n (R163): all `n` bytes are read and checked, also those of clipped rows. -/
def execDrw (x y : Reg) (n : Fin 16) (s : State) : Result :=
  let drawn := drawSprite s.display (s.reg x) (s.reg y) (s.mem.readRange s.i.toNat n.val)
  accessFromI (.drw x y n) n.val s
    (.next (({ s with display := drawn.1 } : State).setReg vf (collisionFlag drawn.2)))

end Sys2Proof.Machine
end

