-- ==== Sys2Proof/Machine/Reset.lean ====
section
/-! DEFINITION. Reset (70_reset_and_hazards.md R240): configuration check, font, ROM load, reset values. -/

namespace Sys2Proof.Machine

/-- `installFontTable()` (20_memory.md R58). -/
def installFontTable (font : Vector Byte 80) (m : Memory) : Memory := m.writeRange fontBase font.toList

/-- `load(bytes, 0x200)` (20_memory.md R59): at most ROM_MAX bytes. -/
def loadRom (rom : List Byte) (m : Memory) : Memory := m.writeRange progBase (rom.take romMax)

/-- The diagnostic of an oversize ROM (20_memory.md R59). -/
def romDiagnostics (rom : List Byte) : List Diagnostic :=
  if romMax < rom.length then [.romTooLarge rom.length] else []

/-- Reset (R240), whatever the state before it. A rejected configuration stops at step 1: only `status` changes
(DEDUCED, log 13). Otherwise all earlier state is gone; the empty list is memory with the default FONT in place, all
of which installFontTable writes anew. The inputs still to come and the draw counter belong to the environment and
stay (log 15); the output logs start anew (log 11). -/
def State.resetSession (s : State) (r : ResetRequest) : State :=
  match openSession r.fields r.params with
  | .error field => { s with status := .faulted (.configParseError field), clock := s.clock + r.advance }
  | .ok cfg =>
    { State.initial cfg (s.clock + r.advance) with
      mem    := loadRom r.rom (installFontTable cfg.font [])
      inputs := s.inputs
      draws  := s.draws
      diag   := romDiagnostics r.rom }

end Sys2Proof.Machine
end

