-- ==== Sys2Proof/Machine/Scheduler.lean ====
section
/-! DEFINITION. The timer scheduler: a pass and its three cadences (60_exceptions.md R220 to R227), and what the
environment's next input does. -/

namespace Sys2Proof.Machine

/-- A countdown register counts down to 0 and stays there (R221). -/
def countDown (t : Byte) : Byte := if t = 0 then 0 else t - 1

/-- `TimerTick()` and the tone, which follows the decremented sound timer (R221, R222). -/
def State.timerTick (s : State) : State :=
  { s with dt := countDown s.dt, st := countDown s.st, tone := countDown s.st != 0 }

/-- The timer cadence of a pass; the timestamp becomes `now`, with no catch-up (R220, R225). -/
def State.timerCadence (s : State) (now : Nat) : State :=
  if s.cfg.timerPeriod ≤ now - s.lastTimer then { s with lastTimer := now }.timerTick else s

/-- The frame cadence of a pass: a copy of the display goes out (R223). -/
def State.frameCadence (s : State) (now : Nat) : State :=
  if s.cfg.framePeriod ≤ now - s.lastFrame then { s with lastFrame := now, frames := s.frames ++ [s.display] } else s

/-- `Cycle()` (R224): fetch, then execute the decoded instruction. A fetch that faults has not advanced PC (R203). -/
def cycle (s : State) : Result :=
  match fetch s with
  | .error f => .next (s.takeFault s.pc f)
  | .ok (w, t) => exec (decodeWord w) t

/-- The CPU period that gates the cycles, if the core is throttled (R224). -/
def State.throttlePeriod (s : State) : Option Nat := if s.cfg.throttle then s.cfg.cpuPeriod else none

/-- `CpuCadence(now)` (R224). -/
def cpuCadence (now : Nat) (s : State) : Result :=
  match s.throttlePeriod with
  | none => cycle s
  | some period => if period ≤ now - s.lastCpu then cycle { s with lastCpu := now } else .next s

/-- A pass before its CPU cadence: edges, then the timer and frame cadences (R220). -/
def State.beforeCpu (s : State) (p : PassInput) : State :=
  ((s.deliverEdges p.edges).timerCadence s.clock).frameCadence s.clock

/-- A pass of a running core whose clock sample is taken (R220): edges, quit, timer, frame, CPU. -/
def runningPass (p : PassInput) (s : State) : Result :=
  if p.quit then .next { s.deliverEdges p.edges with status := .quit }
  else cpuCadence s.clock (s.beforeCpu p)

/-- `pass(now)` (R220): only a Running core does anything. -/
def schedulerPass (p : PassInput) (s : State) : Result :=
  match s.status with
  | .running => runningPass p { s with clock := s.clock + p.advance }
  | .faulted _ => .next { s with clock := s.clock + p.advance }
  | .quit => .next { s with clock := s.clock + p.advance }

/-- The pass of a quiet environment: no edge, no quit, the clock where it was (log 2). -/
def quietPass : PassInput where
  advance := 0
  edges   := []
  quit    := false

/-- The environment's next input: a pass or a reset; a quiet pass when none is left (R228, log 2). -/
def runNextInput (s : State) : Result :=
  match s.inputs with
  | [] => schedulerPass quietPass s
  | .pass p :: rest => schedulerPass p { s with inputs := rest }
  | .reset r :: rest => .next (State.resetSession { s with inputs := rest } r)

/-- How long the clock must go on before a throttled core runs its next cycle. -/
def State.cpuWait (s : State) : Nat :=
  match s.throttlePeriod with
  | none => 0
  | some period => period - (s.clock - s.lastCpu)

/-- The state whose next step fetches and runs the word `w`: the word stands at PC (at 0x200 where PC cannot be
fetched from), the core is Running, and the next input is a pass in which the CPU cadence fires (logs 5, 6). -/
def State.placeWord (s : State) (w : Word) : State :=
  let at' : Word := if 4095 < s.pc.toNat + 1 then 0x0200 else s.pc
  { s with
    pc     := at'
    mem    := s.mem.writeRange at'.toNat (bytesOfWord w)
    status := .running
    inputs := .pass { quietPass with advance := s.cpuWait } :: s.inputs }

end Sys2Proof.Machine
end

