-- ==== Sys2Proof/Machine/Step.lean ====
section
/-! DEFINITION. One step: one input of the environment, which is a scheduler pass or a reset (60_exceptions.md R220,
70_reset_and_hazards.md R240). -/

namespace Sys2Proof.Machine

/-- One step of the machine. -/
def step (s : State) : Host.Outcome State Fault Refusal := runNextInput s

/-- The state whose next step fetches and runs the instruction with bits `w` (logs 5, 6). -/
def State.withFetchWord (s : State) (nbits w : Nat) : State := s.placeWord (tableWord nbits w)

end Sys2Proof.Machine
end

