-- ==== Sys2Proof/Safety.lean ====
section
/-! DEFINITION. The terms the claims use: what an instruction raises, what a step leaves unchanged, the invariants of
the state, and the fields of a word read from its bits. -/

namespace Sys2Proof.Safety

open Sys2Proof.Machine

/-! ## Fields of a word, cut out of its bits (30_encoding.md R71) -/

/-- `w[11:8]`. -/
def xOf (w : Word) : Reg := (w.extractLsb' 8 4).toFin

/-- `w[7:4]`. -/
def yOf (w : Word) : Reg := (w.extractLsb' 4 4).toFin

/-- `w[3:0]`. -/
def nOf (w : Word) : Fin 16 := (w.extractLsb' 0 4).toFin

/-- `w[7:0]`. -/
def nnOf (w : Word) : Byte := w.extractLsb' 0 8

/-- `w[11:0]`. -/
def nnnOf (w : Word) : BitVec 12 := w.extractLsb' 0 12

/-- Every word of a pattern decodes to the instruction built from it. -/
def DecodesTo (mask pattern : Word) (build : Word → Instr) : Prop :=
  ∀ w : Word, w &&& mask = pattern → decodeWord w = build w

/-- A row of spec/opcode_table.json: mask, match and the instruction with its fields. -/
structure OpcodeRow where
  mask    : Word
  pattern : Word
  build   : Word → Instr

/-- The 35 listed rows in the order of 30_encoding.md R77. -/
def opcodeRows : List OpcodeRow :=
  [⟨0xFFFF, 0x00E0, fun _ => .cls⟩, ⟨0xFFFF, 0x00EE, fun _ => .ret⟩, ⟨0xF000, 0x0000, fun w => .sys (nnnOf w)⟩,
   ⟨0xF000, 0x1000, fun w => .jp (nnnOf w)⟩, ⟨0xF000, 0x2000, fun w => .call (nnnOf w)⟩,
   ⟨0xF000, 0x3000, fun w => .seImm (xOf w) (nnOf w)⟩, ⟨0xF000, 0x4000, fun w => .sneImm (xOf w) (nnOf w)⟩,
   ⟨0xF00F, 0x5000, fun w => .seReg (xOf w) (yOf w)⟩, ⟨0xF000, 0x6000, fun w => .ldImm (xOf w) (nnOf w)⟩,
   ⟨0xF000, 0x7000, fun w => .addImm (xOf w) (nnOf w)⟩] ++
  [⟨0xF00F, 0x8000, fun w => .ldReg (xOf w) (yOf w)⟩, ⟨0xF00F, 0x8001, fun w => .orReg (xOf w) (yOf w)⟩,
   ⟨0xF00F, 0x8002, fun w => .andReg (xOf w) (yOf w)⟩, ⟨0xF00F, 0x8003, fun w => .xorReg (xOf w) (yOf w)⟩,
   ⟨0xF00F, 0x8004, fun w => .addReg (xOf w) (yOf w)⟩, ⟨0xF00F, 0x8005, fun w => .sub (xOf w) (yOf w)⟩,
   ⟨0xF00F, 0x8006, fun w => .shr (xOf w) (yOf w)⟩, ⟨0xF00F, 0x8007, fun w => .subn (xOf w) (yOf w)⟩,
   ⟨0xF00F, 0x800E, fun w => .shl (xOf w) (yOf w)⟩, ⟨0xF00F, 0x9000, fun w => .sneReg (xOf w) (yOf w)⟩] ++
  [⟨0xF000, 0xA000, fun w => .ldI (nnnOf w)⟩, ⟨0xF000, 0xB000, fun w => .jpo (nnnOf w)⟩,
   ⟨0xF000, 0xC000, fun w => .rnd (xOf w) (nnOf w)⟩, ⟨0xF000, 0xD000, fun w => .drw (xOf w) (yOf w) (nOf w)⟩,
   ⟨0xF0FF, 0xE09E, fun w => .skp (xOf w)⟩, ⟨0xF0FF, 0xE0A1, fun w => .sknp (xOf w)⟩] ++
  [⟨0xF0FF, 0xF007, fun w => .ldVxDt (xOf w)⟩, ⟨0xF0FF, 0xF00A, fun w => .ldVxK (xOf w)⟩,
   ⟨0xF0FF, 0xF015, fun w => .ldDt (xOf w)⟩, ⟨0xF0FF, 0xF018, fun w => .ldSt (xOf w)⟩,
   ⟨0xF0FF, 0xF01E, fun w => .addI (xOf w)⟩, ⟨0xF0FF, 0xF029, fun w => .ldF (xOf w)⟩,
   ⟨0xF0FF, 0xF033, fun w => .ldB (xOf w)⟩, ⟨0xF0FF, 0xF055, fun w => .stRegs (xOf w)⟩,
   ⟨0xF0FF, 0xF065, fun w => .ldRegs (xOf w)⟩]

/-- The word is one of the UNSUPPORTED ones. -/
def isUnsupported (w : Word) : Bool := decodeWord w == .unsupported w

/-! ## What an instruction raises (60_exceptions.md R205, its own condition) -/

/-- The bounds fault of an instruction that accesses `count` bytes from I up (20_memory.md R52, R53). -/
def boundsFault (i : Instr) (count : Nat) (s : State) : Option Fault :=
  if 0 < count ∧ 4096 < s.i.toNat + count then
    some (.memoryBoundsError (max s.i.toNat 4096) (s.pc - 2) (some (encodeWord i)))
  else none

/-- The fault an instruction raises in a state, if any (60_exceptions.md R201, R205). -/
def raisedFault (i : Instr) (s : State) : Option Fault :=
  match i with
  | .drw _ _ n => boundsFault i n.val s
  | .ldB _ => boundsFault i 3 s
  | .stRegs x => boundsFault i (x.val + 1) s
  | .ldRegs x => boundsFault i (x.val + 1) s
  | .jpo _ =>
    if s.cfg.dialect = .chip48 ∧ s.cfg.bnnnChip48 = .fault then
      some (.undefinedJumpOffset (s.pc - 2) (encodeWord i))
    else none
  | .cls | .ret | .sys _ | .jp _ | .call _ | .seImm _ _ | .sneImm _ _ | .seReg _ _ | .ldImm _ _ | .addImm _ _
  | .ldReg _ _ | .orReg _ _ | .andReg _ _ | .xorReg _ _ | .addReg _ _ | .sub _ _ | .shr _ _ | .subn _ _
  | .shl _ _ | .sneReg _ _ | .ldI _ | .rnd _ _ | .skp _ | .sknp _ | .ldVxDt _ | .ldVxK _ | .ldDt _ | .ldSt _
  | .addI _ | .ldF _ | .unsupported _ => none

/-- The instruction takes the fault `f` (60_exceptions.md R203): PC, which the fetch has advanced, goes back to the
instruction's address, `status` holds the fault, and nothing else is written. -/
def TakesFault (i : Instr) (s : State) (f : Fault) : Prop :=
  exec i s = .next { s with pc := s.pc - 2, status := .faulted f }

/-- The step is safe: it answers a state whose core is still running. -/
def SafeStep (s t : State) : Prop := step s = .next t ∧ t.status = .running

/-! ## Frames -/

/-- Every byte of memory reads as before. -/
def KeepsMemory (s t : State) : Prop := ∀ a, t.readByte a = s.readByte a

/-- Every byte of memory outside `base .. base + count - 1` reads as before. -/
def StoresOnly (base count : Nat) (s t : State) : Prop :=
  ∀ a, ¬(base ≤ a ∧ a < base + count) → t.readByte a = s.readByte a

/-- Every register outside the list is as before. -/
def KeepsRegsBut (rs : List Reg) (s t : State) : Prop := ∀ r, r ∉ rs → t.reg r = s.reg r

/-- Only the listed general registers may change; PC keeps the fetch advance. -/
def ChangesOnlyRegs (rs : List Reg) (s t : State) : Prop :=
  t = { s with v := t.v } ∧ KeepsRegsBut rs s t ∧ KeepsMemory s t

/-- Only PC may change. -/
def ChangesOnlyPc (s t : State) : Prop :=
  t = { s with pc := t.pc } ∧ KeepsRegsBut [] s t ∧ KeepsMemory s t

/-- Only I may change. -/
def ChangesOnlyI (s t : State) : Prop :=
  t = { s with i := t.i } ∧ KeepsRegsBut [] s t ∧ KeepsMemory s t

/-- Only the diagnostics output grows, by `d`. -/
def OnlyReports (d : Diagnostic) (s t : State) : Prop :=
  t = { s with diag := s.diag ++ [d] } ∧ KeepsRegsBut [] s t ∧ KeepsMemory s t

/-! ## The access matrix (10_state.md R43) -/

/-- The components of the state an instruction could write; `regs` is V0..VF, `machine` is everything that no
instruction writes. -/
inductive Component where
  | regs | index | pc | delay | sound | stack | mem | display | keyWait | draws | diag | machine
  deriving DecidableEq, Repr

/-- The component holds the same in both states. -/
def Component.same (s t : State) : Component → Prop
  | .regs => t.v = s.v
  | .index => t.i = s.i
  | .pc => t.pc = s.pc
  | .delay => t.dt = s.dt
  | .sound => t.st = s.st
  | .stack => t.stack = s.stack ∧ t.sp = s.sp
  | .mem => t.mem = s.mem
  | .display => t.display = s.display
  | .keyWait => t.kw = s.kw
  | .draws => t.draws = s.draws
  | .diag => t.diag = s.diag
  | .machine => t.keys = s.keys ∧ t.tone = s.tone ∧ t.lastTimer = s.lastTimer ∧ t.lastFrame = s.lastFrame ∧
      t.lastCpu = s.lastCpu ∧ t.status = s.status ∧ t.cfg = s.cfg ∧ t.clock = s.clock ∧ t.inputs = s.inputs ∧
      t.frames = s.frames

/-- The w and c columns of R43, with the diagnostics of 60_exceptions.md R202 and the draw of 41_alu.md R135. -/
def writes : Instr → List Component
  | .cls => [.display]
  | .ret => [.pc, .stack, .diag]
  | .sys _ | .call _ => [.pc, .stack, .diag]
  | .jp _ | .jpo _ => [.pc]
  | .seImm _ _ | .sneImm _ _ | .seReg _ _ | .sneReg _ _ | .skp _ | .sknp _ => [.pc]
  | .ldImm _ _ | .addImm _ _ | .ldReg _ _ | .orReg _ _ | .andReg _ _ | .xorReg _ _ | .addReg _ _ | .sub _ _
  | .shr _ _ | .subn _ _ | .shl _ _ | .ldVxDt _ => [.regs]
  | .ldI _ | .addI _ | .ldF _ => [.index]
  | .rnd _ _ => [.regs, .draws]
  | .drw _ _ _ => [.regs, .display]
  | .ldVxK _ => [.regs, .pc, .keyWait]
  | .ldDt _ => [.delay]
  | .ldSt _ => [.sound]
  | .ldB _ => [.mem]
  | .stRegs _ => [.mem, .index]
  | .ldRegs _ => [.regs, .index]
  | .unsupported _ => [.diag]

/-! ## Dialects (30_encoding.md R75) -/

/-- The same state in a session of another dialect. -/
def withDialect (d : Dialect) (s : State) : State := { s with cfg := { s.cfg with dialect := d } }

/-- The outcome with its next state changed. -/
def mapNext (g : State → State) : Result → Result
  | .next t => .next (g t)
  | .fault f => .fault f
  | .refused r => .refused r

/-- The instructions that consult the quirk table (R75). -/
def consultsQuirks : Instr → Bool
  | .orReg _ _ | .andReg _ _ | .xorReg _ _ | .shr _ _ | .shl _ _ | .jpo _ | .stRegs _ | .ldRegs _ => true
  | .cls | .ret | .sys _ | .jp _ | .call _ | .seImm _ _ | .sneImm _ _ | .seReg _ _ | .ldImm _ _ | .addImm _ _
  | .ldReg _ _ | .addReg _ _ | .sub _ _ | .subn _ _ | .sneReg _ _ | .ldI _ | .rnd _ _ | .drw _ _ _ | .skp _
  | .sknp _ | .ldVxDt _ | .ldVxK _ | .ldDt _ | .ldSt _ | .addI _ | .ldF _ | .ldB _ | .unsupported _ => false

/-! ## Invariants -/

/-- The state invariant: canonical memory, the call-stack depth (10_state.md R30), timestamps that the clock has
reached, and periods of at least one unit (60_exceptions.md R227). -/
structure StateInv (s : State) : Prop where
  memory      : Memory.wf s.mem = true
  depth       : s.sp ≤ 255
  timer       : s.lastTimer ≤ s.clock
  frame       : s.lastFrame ≤ s.clock
  cpu         : s.lastCpu ≤ s.clock
  timerPeriod : 1 ≤ s.cfg.timerPeriod
  framePeriod : 1 ≤ s.cfg.framePeriod
  cpuPeriod   : ∀ p, s.cfg.cpuPeriod = some p → 1 ≤ p

/-- The word at PC. -/
def wordAtPc (s : State) : Word := wordOfBytes (s.readByte s.pc.toNat) (s.readByte (s.pc.toNat + 1))

/-- The key-wait invariant (44_keys_timers.md R188): while KW is not Idle, PC stands at an FX0A word in memory. -/
def KeyWaitInv (s : State) : Prop :=
  s.kw ≠ .idle → s.pc.toNat + 1 ≤ 4095 ∧ ∃ x, decodeWord (wordAtPc s) = .ldVxK x

/-! ## Memory after a reset (20_memory.md R57 to R59) -/

/-- Memory holds the font at 0x050..0x09F, the first 3583 bytes of the ROM from 0x200 and zero everywhere else. -/
def HoldsFontAndRom (font : Vector Byte 80) (rom : List Byte) (t : State) : Prop :=
  (∀ (k : Nat) (h : k < 80), t.readByte (0x50 + k) = font[k]) ∧
  (∀ (k : Nat) (h : k < rom.length), k < 3583 → t.readByte (0x200 + k) = rom[k]) ∧
  (∀ a, a < 4096 → ¬(0x50 ≤ a ∧ a < 0xA0) → ¬(0x200 ≤ a ∧ a < 0x200 + min rom.length 3583) → t.readByte a = 0)

/-- A configuration that 70_reset_and_hazards.md R241 accepts, for the dialect `d`. -/
def Accepts (f : ConfigFields) (d : Dialect) : Prop :=
  ((f.chipMode = 1 ∧ d = .cosmacvip) ∨ (f.chipMode = 2 ∧ d = .chip48) ∨ (f.chipMode = 4 ∧ d = .superchip)) ∧
  0 ≤ f.frequencyCpu ∧ 0 < f.frameRate

/-! ## The sprite as a set of pixels (43_display.md R162) -/

/-- The pixel (px, py) lies under a 1 bit of the sprite whose anchor is wrapped and which clips at the edges. -/
def covered (x y : Byte) (bytes : List Byte) (px py : Nat) : Bool :=
  decide (x.toNat % 64 ≤ px) && decide (px < x.toNat % 64 + 8) && decide (y.toNat % 32 ≤ py) &&
    decide (py < y.toNat % 32 + bytes.length) &&
    (bytes.getD (py - y.toNat % 32) 0).getLsbD (7 - (px - x.toNat % 64))

/-! ## Passes -/

/-- The next input is the pass `p`: either it stands first in the inputs, or no input is left and it is the quiet
pass, which is the model's choice (DESIGN CHOICE, log 2). `rest` are the inputs after it. -/
def NextIsPass (s : State) (p : PassInput) (rest : List Input) : Prop :=
  s.inputs = .pass p :: rest ∨ (s.inputs = [] ∧ p = quietPass ∧ rest = [])

/-- The clock sample of the pass `p`. -/
def sampleOf (s : State) (p : PassInput) : Nat := s.clock + p.advance

/-- The timer cadence is due in the pass `p` (60_exceptions.md R220). -/
abbrev TimerDue (s : State) (p : PassInput) : Prop := s.cfg.timerPeriod ≤ sampleOf s p - s.lastTimer

/-- The frame cadence is due in the pass `p` (60_exceptions.md R220). -/
abbrev FrameDue (s : State) (p : PassInput) : Prop := s.cfg.framePeriod ≤ sampleOf s p - s.lastFrame

/-- The CPU cadence fires in the pass `p`: the core is not throttled or its period has elapsed (60_exceptions.md
R224). -/
def CpuDue (s : State) (p : PassInput) : Prop :=
  ∀ period, s.throttlePeriod = some period → period ≤ sampleOf s p - s.lastCpu

/-- What a pass may do to `status` and to the diagnostics (60_exceptions.md R200, R205): it keeps `status` and reports
nothing or one diagnostic, or it ends the session of a running core, by quit or by a fault, and reports nothing. -/
def OneErrorAtMost (s t : State) : Prop :=
  (t.status = s.status ∧ (t.diag = s.diag ∨ ∃ d, t.diag = s.diag ++ [d])) ∨
  (s.status = .running ∧ (t.status = .quit ∨ ∃ f, t.status = .faulted f) ∧ t.diag = s.diag)

end Sys2Proof.Safety
end

