-- ==== Sys2Proof/Certificates/Slice0/Obligations.lean ====
section
/-! DEFINITION. The statements for the provers. Each cites the rules of spec/ it formalises; none is proved here. -/

section

open Sys2Proof Sys2Proof.Machine Sys2Proof.Safety

/-! ## Decoding and encoding (30_encoding.md) -/

/-- R77: the decoder answers the first matching row of the opcode table, its fields cut out of the
word's bits, and UNSUPPORTED where no row matches. -/
def Obligations.EveryWordDecodesByTheOpcodeTable : Prop :=
  ∀ w : Word, decodeWord w =
    match opcodeRows.find? (fun r => w &&& r.mask == r.pattern) with
    | some r => r.build w
    | none => .unsupported w

/-- R70 to R74: encoding loses no operand; a well-formed instruction's bytes decode to it, whatever follows them. -/
def Obligations.DecodeInvertsEncode : Prop :=
  ∀ (i : Instr) (rest : List Byte), i.wf = true → decode (encode i ++ rest) = .ok (i, rest)

/-- R77: every word decodes to a well-formed instruction, and encoding it gives the word back. -/
def Obligations.EncodeInvertsDecode : Prop :=
  ∀ w : Word, (decodeWord w).wf = true ∧ encodeWord (decodeWord w) = w

/-- R82, R83 (with R79): the UNSUPPORTED words are those of the 5 and 9 groups with a nonzero low nibble and those of
the 8, E and F groups whose secondary key is not listed; every word of the other groups is an instruction. -/
def Obligations.UnsupportedWordsAreThoseWithUnlistedKeys : Prop :=
  ∀ w : Word, isUnsupported w = true ↔
    (w.extractLsb' 12 4 ∈ ([0x5, 0x9] : List (BitVec 4)) ∧ nOf w ≠ 0) ∨
    (w.extractLsb' 12 4 = (0x8 : BitVec 4) ∧ nOf w ∉ ([0, 1, 2, 3, 4, 5, 6, 7, 14] : List (Fin 16))) ∨
    (w.extractLsb' 12 4 = (0xE : BitVec 4) ∧ nnOf w ∉ ([0x9E, 0xA1] : List Byte)) ∨
    (w.extractLsb' 12 4 = (0xF : BitVec 4) ∧
      nnOf w ∉ ([0x07, 0x0A, 0x15, 0x18, 0x1E, 0x29, 0x33, 0x55, 0x65] : List Byte))

/-- Words written out from the encodings of the opcode table, one of each format and group (R81, R82, R84). -/
def Obligations.WordsWrittenOutDecode : Prop :=
  decodeWord 0x00E0 = .cls ∧ decodeWord 0x00EE = .ret ∧ decodeWord 0x01E0 = .sys 0x1E0 ∧
  decodeWord 0x1FFF = .jp 0xFFF ∧ decodeWord 0x3A7F = .seImm 10 0x7F ∧ decodeWord 0x5120 = .seReg 1 2 ∧
  decodeWord 0x5121 = .unsupported 0x5121 ∧ decodeWord 0x8F1E = .shl 15 1 ∧ decodeWord 0xB300 = .jpo 0x300 ∧
  decodeWord 0xD015 = .drw 0 1 5 ∧ decodeWord 0xE1A1 = .sknp 1 ∧ decodeWord 0xFF65 = .ldRegs 15 ∧
  decodeWord 0xF130 = .unsupported 0xF130

/-- R75, R2: outside the eight quirk instructions the meaning does not look at the dialect. -/
def Obligations.DialectMattersOnlyToQuirkInstructions : Prop :=
  ∀ (i : Instr) (d : Dialect) (s : State), consultsQuirks i = false →
    exec i (withDialect d s) = mapNext (withDialect d) (exec i s)

/-- R38: the quirk table. -/
def Obligations.QuirkTableIsTheSpecs : Prop :=
  (logicClearsVF .cosmacvip = true ∧ logicClearsVF .chip48 = false ∧ logicClearsVF .superchip = false) ∧
  (shiftSource .cosmacvip = .vy ∧ shiftSource .chip48 = .vx ∧ shiftSource .superchip = .vx) ∧
  (jumpOffset .cosmacvip = some .v0 ∧ jumpOffset .chip48 = none ∧ jumpOffset .superchip = some .vx) ∧
  (memIncrementsI .cosmacvip = true ∧ memIncrementsI .chip48 = false ∧ memIncrementsI .superchip = false)

/-! ## The step, the fetch and faults -/

/-- R220, R224, 20_memory.md R51: in a pass of a running core that is not asked to quit and whose CPU cadence fires,
if the two bytes at PC decode to an instruction, the step is exec of it on the state after the pass's edges, timer and
frame cadences, with `lastCpu` stamped when throttled and PC advanced by 2. That a core without inputs runs the quiet
pass (a case of NextIsPass) is the model's choice, log 2. -/
def Obligations.StepRunsTheDecodedInstruction : Prop :=
  ∀ (s : State) (p : PassInput) (rest : List Input) (i : Instr),
    s.status = .running → NextIsPass s p rest → p.quit = false →
    let b := State.beforeCpu { s with inputs := rest, clock := sampleOf s p } p
    let c := if b.throttlePeriod.isSome then { b with lastCpu := b.clock } else b
    (∀ period, b.throttlePeriod = some period → period ≤ b.clock - b.lastCpu) →
    b.pc.toNat + 1 ≤ 4095 →
    decode [b.readByte b.pc.toNat, b.readByte (b.pc.toNat + 1)] = .ok (i, []) →
    step s = exec i { c with pc := c.pc + 2 }

/-- 20_memory.md R51, R52: the fetch reads the big-endian word at PC and advances PC by 2, or fails with the first
out-of-range address, PC + 1 taken without wrap. At PC = 0xFFFF that address is 0xFFFF, as R51's pseudocode and R52
give it; R51's prose names 0x10000 (log 22, DEDUCED). -/
def Obligations.FetchReadsTheWordAtPc : Prop :=
  ∀ s : State,
    (s.pc.toNat + 1 ≤ 4095 → ∃ w t, fetch s = .ok (w, t) ∧
      w.toNat = (s.readByte s.pc.toNat).toNat * 256 + (s.readByte (s.pc.toNat + 1)).toNat ∧
      t = { s with pc := t.pc } ∧ t.pc.toNat = (s.pc.toNat + 2) % 65536) ∧
    (s.pc.toNat = 4095 → fetch s = .error (.memoryBoundsError 4096 s.pc none)) ∧
    (4095 < s.pc.toNat → fetch s = .error (.memoryBoundsError s.pc.toNat s.pc none))

/-- 60_exceptions.md R201, R203, R205: an instruction takes exactly the fault the spec names, when the spec says so, and
otherwise answers a next state with the status as it was. Every instruction of the table completes in every state in
which it raises nothing. That a fault is taken as a next state is log 14, the word it records is log 18. -/
def Obligations.ExecRaisesExactlyTheSpecsFaults : Prop :=
  ∀ (i : Instr) (s : State),
    match raisedFault i s with
    | some f => TakesFault i s f
    | none => ∃ t, exec i s = .next t ∧ t.status = s.status

/-- 60_exceptions.md R200, R205, 70_reset_and_hazards.md R240: a step never ends the machine. In a pass an error is one
diagnostic, after which `status` is as before, or a fault, after which `status` is Faulted and nothing was reported,
and there is at most one; where a reset is the next input it is taken in every state and leaves the core Running, or
Faulted with ConfigParseError. That a fault is a next state is log 14 (DEDUCED), the diagnostics as a log in State
log 11 and the quiet pass of a core without inputs log 2 (both DESIGN CHOICE). -/
def Obligations.EveryStepAnswersANextState : Prop :=
  ∀ s : State, ∃ t, step s = .next t ∧
    ((∃ p rest, NextIsPass s p rest ∧ OneErrorAtMost s t) ∨
     (∃ r rest, s.inputs = .reset r :: rest ∧
      (t.status = .running ∨ ∃ field, t.status = .faulted (.configParseError field))))

/-- 60_exceptions.md R203: a cycle whose fetch or whose instruction raises a fault f changes nothing but `status`, and
the `fault` port carries f after it; the port carries f exactly while the core is Faulted(f). That the fault is taken
as a next state is log 14 (DEDUCED). -/
def Obligations.FaultChangesOnlyTheStatus : Prop :=
  ∀ (s : State) (f : Fault),
    (fetch s = .error f ∨ (∃ w t, fetch s = .ok (w, t) ∧ raisedFault (decodeWord w) t = some f) →
      ∃ u, cycle s = .next u ∧ u = { s with status := .faulted f } ∧ u.faultPort = some f) ∧
    (s.faultPort = some f ↔ s.status = .faulted f)

/-- 60_exceptions.md R203, R226, 10_state.md R40: while the core is Faulted or has quit, any number of passes leaves
everything as it is but the inputs used up and the clock port, and the `fault` port carries what it carried. That a
stopped pass uses up its input and takes the clock sample is log 14 (DEDUCED); that quiet passes follow when the inputs
are used up is the model's choice, log 2 (DESIGN CHOICE). -/
def Obligations.StoppedCoreIsFrozen : Prop :=
  ∀ (n : Nat) (s : State), s.status ≠ .running → (∀ inp ∈ s.inputs, ∃ p, inp = .pass p) →
    ∃ t, Host.Core.run Sys2Proof.core n s = .next t ∧ t = { s with inputs := t.inputs, clock := t.clock } ∧
      t.faultPort = s.faultPort

/-- 60_exceptions.md R226, R220: a quit seen in a pass sets `status` before any cadence of that pass; the edges of the
pass are delivered first. (A core without inputs runs the quiet pass of log 2, which brings no quit.) -/
def Obligations.QuitEndsThePassBeforeAnyCadence : Prop :=
  ∀ (s : State) (p : PassInput) (rest : List Input),
    s.status = .running → NextIsPass s p rest → p.quit = true →
    ∃ t, step s = .next t ∧ t.status = .quit ∧
      t.keys = (s.deliverEdges p.edges).keys ∧ t.kw = (s.deliverEdges p.edges).kw ∧
      t = { s with keys := t.keys, kw := t.kw, status := .quit, inputs := rest, clock := sampleOf s p }

/-! ## The scheduler (60_exceptions.md) -/

/-- R221, R222: a timer tick takes 1 from each nonzero timer and sets TONE from the new sound timer. -/
def Obligations.TimerTickCountsDownAndSetsTone : Prop :=
  ∀ s : State, ∃ t, s.timerTick = t ∧ t.dt.toNat = s.dt.toNat - 1 ∧ t.st.toNat = s.st.toNat - 1 ∧
    (t.tone = true ↔ t.st ≠ 0) ∧ t = { s with dt := t.dt, st := t.st, tone := t.tone }

/-- R222: after k timer ticks (k at least 1) the tone sounds exactly while k is below the sound timer's first value,
so a timer set to s gives s - 1 ticks of tone, and one set to 1 none. -/
def Obligations.ToneLastsOneTickLessThanTheSoundTimer : Prop :=
  ∀ (k : Nat) (s : State), 1 ≤ k → (State.timerTick^[k] s).tone = decide (k < s.st.toNat)

/-- R220 to R223, R225: whatever instruction a pass runs, timer and frame work is done once when due, with no
catch-up. Before the cycle, DT and ST have counted down once exactly when the timer cadence is due, and they stay so
through the pass but for an FX15 (DT) or FX18 (ST) at PC. TONE and the timer timestamp move only when that cadence is
due; one frame with the display as it stands before the cycle goes out when the frame cadence is due, and each
timestamp becomes the clock sample. The frames as a log in State are log 11 and the quiet pass of a core without inputs
is log 2 (both DESIGN CHOICE). -/
def Obligations.PassDoesTimerAndFrameWorkOnce : Prop :=
  ∀ (s t : State) (p : PassInput) (rest : List Input),
    s.status = .running → NextIsPass s p rest → p.quit = false → step s = .next t →
    let now := sampleOf s p
    let b := State.beforeCpu { s with inputs := rest, clock := now } p
    let dt := if TimerDue s p then s.dt.toNat - 1 else s.dt.toNat
    let st := if TimerDue s p then s.st.toNat - 1 else s.st.toNat
    b.dt.toNat = dt ∧ b.st.toNat = st ∧
    ((∀ x, decodeWord (wordAtPc s) ≠ .ldDt x) → t.dt.toNat = dt) ∧
    ((∀ x, decodeWord (wordAtPc s) ≠ .ldSt x) → t.st.toNat = st) ∧
    t.tone = (if TimerDue s p then decide (1 < s.st.toNat) else s.tone) ∧
    t.lastTimer = (if TimerDue s p then now else s.lastTimer) ∧
    t.frames = s.frames ++ (if FrameDue s p then [s.display] else []) ∧
    t.lastFrame = (if FrameDue s p then now else s.lastFrame)

/-- R224, R220: a pass of a throttled core whose CPU period has not elapsed runs no instruction: only the edges, the
timers, the tone, the timestamps of the timer and frame cadences and the frame output can change. That a core without
inputs runs the quiet pass (a case of NextIsPass) is the model's choice, log 2 (DESIGN CHOICE). -/
def Obligations.ThrottledPassNotDueRunsNoInstruction : Prop :=
  ∀ (s : State) (p : PassInput) (rest : List Input) (period : Nat),
    s.status = .running → NextIsPass s p rest → p.quit = false →
    s.cfg.throttle = true → s.cfg.cpuPeriod = some period → sampleOf s p - s.lastCpu < period →
    ∃ t, step s = .next t ∧
      t.dt.toNat = (if TimerDue s p then s.dt.toNat - 1 else s.dt.toNat) ∧
      t.st.toNat = (if TimerDue s p then s.st.toNat - 1 else s.st.toNat) ∧
      t = { s with keys := t.keys, kw := t.kw, dt := t.dt, st := t.st, tone := t.tone, lastTimer := t.lastTimer,
                   lastFrame := t.lastFrame, frames := t.frames, inputs := rest, clock := sampleOf s p }

/-- R224: the CPU cadence runs one cycle when the core is not throttled or has no target frequency, and otherwise one
cycle, stamped with the clock sample, exactly when the period has elapsed. -/
def Obligations.CpuCadenceRunsOneCycleWhenDue : Prop :=
  ∀ (now : Nat) (s : State),
    ((s.cfg.throttle = false ∨ s.cfg.cpuPeriod = none) → cpuCadence now s = cycle s) ∧
    (∀ period, s.cfg.throttle = true → s.cfg.cpuPeriod = some period →
      cpuCadence now s = if period ≤ now - s.lastCpu then cycle { s with lastCpu := now } else .next s)

/-- 10_state.md R43: an instruction that raises no fault changes only the components its row of the access matrix
writes; no instruction writes the keypad, TONE, the timestamps, `status`, the configuration, the clock, the inputs or
the frame output. -/
def Obligations.InstructionsWriteOnlyTheirMatrixRow : Prop :=
  ∀ (i : Instr) (s t : State), raisedFault i s = none → exec i s = .next t →
    ∀ c, c ∉ writes i → Component.same s t c

/-- 70_reset_and_hazards.md R249: the core does not stop at a jump to itself. In every pass without quit whose CPU
cadence fires, throttled or not, the step runs the jump again: PC and `status` stay, and besides what the scheduler does
nothing changes; DT and ST keep counting down and frames keep going out. That a core without inputs runs the quiet pass
(a case of NextIsPass) is the model's choice, log 2 (DESIGN CHOICE). -/
def Obligations.SelfJumpKeepsRunning : Prop :=
  ∀ (s : State) (p : PassInput) (rest : List Input) (nnn : BitVec 12),
    s.status = .running → NextIsPass s p rest → p.quit = false → CpuDue s p →
    s.pc = addressOf nnn → s.pc.toNat + 1 ≤ 4095 → decodeWord (wordAtPc s) = .jp nnn →
    ∃ t, step s = .next t ∧ t.pc = s.pc ∧ t.status = .running ∧
      t.dt.toNat = (if TimerDue s p then s.dt.toNat - 1 else s.dt.toNat) ∧
      t.st.toNat = (if TimerDue s p then s.st.toNat - 1 else s.st.toNat) ∧
      t.frames = s.frames ++ (if FrameDue s p then [s.display] else []) ∧
      t = { s with keys := t.keys, kw := t.kw, dt := t.dt, st := t.st, tone := t.tone, lastTimer := t.lastTimer,
                   lastFrame := t.lastFrame, lastCpu := t.lastCpu, frames := t.frames, inputs := rest,
                   clock := sampleOf s p } ∧
      KeepsRegsBut [] s t ∧ KeepsMemory s t

/-! ## Invariants -/

/-- Memory stays canonical, the call-stack depth stays in 0..255 (10_state.md R30), no timestamp runs ahead of the
clock and every period stays at least one unit (60_exceptions.md R227), over every step from every such state. -/
def Obligations.StepKeepsTheStateInvariant : Prop :=
  ∀ s t : State, StateInv s → step s = .next t → StateInv t

/-- 44_keys_timers.md R188: while KW is not Idle, PC stands at an FX0A word, after every step. -/
def Obligations.StepKeepsTheKeyWaitInvariant : Prop :=
  ∀ s t : State, KeyWaitInv s → step s = .next t → KeyWaitInv t

/-- The reset state meets both invariants. -/
def Obligations.ResetMeetsTheInvariants : Prop := StateInv State.reset ∧ KeyWaitInv State.reset

/-- The reset values that 10_state.md R44 states, in State.reset, all of memory and the three timestamps among them.
The session of State.reset, its empty ROM and default FONT among it, is the model's choice (log 4, DESIGN CHOICE), its
clock sample 0 too (log 3, DESIGN CHOICE), and the 80 font bytes are the spec's general knowledge (log 10, PRESUMED). -/
def Obligations.ResetStateHoldsTheSpecsValues : Prop :=
  (∀ r, State.reset.reg r = 0) ∧ State.reset.i = 0 ∧ State.reset.pc = 0x0200 ∧ State.reset.dt = 0 ∧
  State.reset.st = 0 ∧ State.reset.sp = 0 ∧ (∀ px py, State.reset.display.pixel px py = false) ∧
  (∀ v, State.reset.pressed v = false) ∧ State.reset.kw = .idle ∧ State.reset.tone = false ∧
  State.reset.status = .running ∧ State.reset.lastTimer = State.reset.clock ∧
  State.reset.lastFrame = State.reset.clock ∧ State.reset.lastCpu = State.reset.clock ∧
  (List.range 80).map (fun k => State.reset.readByte (0x50 + k)) =
    [0xF0, 0x90, 0x90, 0x90, 0xF0, 0x20, 0x60, 0x20, 0x20, 0x70, 0xF0, 0x10, 0xF0, 0x80, 0xF0] ++
    [0xF0, 0x10, 0xF0, 0x10, 0xF0, 0x90, 0x90, 0xF0, 0x10, 0x10, 0xF0, 0x80, 0xF0, 0x10, 0xF0] ++
    [0xF0, 0x80, 0xF0, 0x90, 0xF0, 0xF0, 0x10, 0x20, 0x40, 0x40, 0xF0, 0x90, 0xF0, 0x90, 0xF0] ++
    [0xF0, 0x90, 0xF0, 0x10, 0xF0, 0xF0, 0x90, 0xF0, 0x90, 0x90, 0xE0, 0x90, 0xE0, 0x90, 0xE0] ++
    [0xF0, 0x80, 0x80, 0x80, 0xF0, 0xE0, 0x90, 0x90, 0x90, 0xE0, 0xF0, 0x80, 0xF0, 0x80, 0xF0] ++
    [0xF0, 0x80, 0xF0, 0x80, 0x80] ∧
  ∀ a, a < 4096 → ¬(0x50 ≤ a ∧ a < 0xA0) → State.reset.readByte a = 0

/-! ## Reset (70_reset_and_hazards.md) -/

/-- R240, R241, 10_state.md R44, 20_memory.md R57 to R59: a step that takes a reset with an accepted configuration, in
whatever state the core is, starts a session with every component at its reset value, memory among them. The periods'
rounding is log 19; that the inputs still to come are kept is the model's choice (log 15, DESIGN CHOICE), and so are the
frames as a log that starts anew (log 11, DESIGN CHOICE). The entries of the call stack have no reset value in R44. -/
def Obligations.AcceptedResetStartsASession : Prop :=
  ∀ (s : State) (r : ResetRequest) (rest : List Input) (d : Dialect),
    s.inputs = .reset r :: rest → Accepts r.fields d →
    ∃ t, step s = .next t ∧ t.status = .running ∧ (∀ x, t.reg x = 0) ∧ t.i = 0 ∧ t.pc = 0x0200 ∧ t.dt = 0 ∧ t.st = 0 ∧
      t.sp = 0 ∧ (∀ px py, t.display.pixel px py = false) ∧ (∀ v, t.pressed v = false) ∧ t.kw = .idle ∧
      t.tone = false ∧ t.clock = s.clock + r.advance ∧ t.lastTimer = t.clock ∧ t.lastFrame = t.clock ∧
      t.lastCpu = t.clock ∧ HoldsFontAndRom r.params.font r.rom t ∧ t.frames = [] ∧ t.inputs = rest ∧ t.cfg.dialect = d ∧
      (t.cfg.throttle = true ↔ r.fields.enableDelay ≠ 0) ∧
      (r.fields.frequencyCpu = 0 → t.cfg.cpuPeriod = none) ∧
      (0 < r.fields.frequencyCpu →
        t.cfg.cpuPeriod = some (max 1 (r.params.clockHz / r.fields.frequencyCpu.toNat))) ∧
      (r.params.timerPeriod = none → t.cfg.timerPeriod = max 1 (r.params.clockHz / 60)) ∧
      t.cfg.framePeriod = max 1 (r.params.clockHz / r.fields.frameRate.toNat) ∧
      t.cfg.font = r.params.font ∧ t.cfg.bnnnChip48 = r.params.bnnnChip48

/-- R241: a CHIP_MODE that is not exactly 1, 2 or 4, a negative FREQUENCY_CPU or a FRAME_RATE of 0 or less is rejected:
the core is Faulted with ConfigParseError. -/
def Obligations.RejectedResetFaults : Prop :=
  ∀ (s : State) (r : ResetRequest) (rest : List Input), s.inputs = .reset r :: rest →
    ((r.fields.chipMode ≠ 1 ∧ r.fields.chipMode ≠ 2 ∧ r.fields.chipMode ≠ 4) ∨ r.fields.frequencyCpu < 0 ∨
      r.fields.frameRate ≤ 0) →
    ∃ t field, step s = .next t ∧ t.status = .faulted (.configParseError field)

/-- 20_memory.md R57, R58, R59: after the step that takes an accepted reset, memory holds the font at 0x50, the first
3583 ROM bytes from 0x200 and zeros elsewhere; a longer ROM is reported as RomTooLarge. That the diagnostics are a log
in State, which a reset starts anew, is the model's choice (log 11, DESIGN CHOICE). -/
def Obligations.ResetLoadsFontAndRom : Prop :=
  ∀ (s : State) (r : ResetRequest) (rest : List Input) (d : Dialect),
    s.inputs = .reset r :: rest → Accepts r.fields d →
    ∃ t, step s = .next t ∧ HoldsFontAndRom r.params.font r.rom t ∧
      t.diag = (if 3583 < r.rom.length then [.romTooLarge r.rom.length] else [])

/-! ## Memory (20_memory.md) -/

/-- R56, R61: a read returns the last value written to that address, and a write leaves every other address alone. -/
def Obligations.ReadAfterWrite : Prop :=
  ∀ (m : Memory) (a c : Nat) (b : Byte), Memory.wf m = true →
    (Memory.write m a b).read c = if c = a then b else m.read c

/-- Canonical memories that read the same are the same list, so states with equal memory are equal data. -/
def Obligations.CanonicalMemoriesAreEqual : Prop :=
  ∀ m n : Memory, Memory.wf m = true → Memory.wf n = true → (∀ a, m.read a = n.read a) → m = n

/-- R64: a byte that FX33 or FX55 has stored is seen by the very next fetch, wherever the fetched word lies: each of
its two bytes is the stored byte where its address was stored to, and the byte of memory before the instruction
otherwise. `bytes` are what the instruction stores from I up (42_index_memory.md R143, R144). -/
def Obligations.StoredBytesAreFetched : Prop :=
  ∀ (s t : State) (x : Reg) (i : Instr) (bytes : List Byte), Memory.wf s.mem = true →
    ((i = .stRegs x ∧ bytes = (List.range (x.val + 1)).map fun k => s.reg (Fin.ofNat 16 k)) ∨
      (i = .ldB x ∧ bytes.map BitVec.toNat =
        [(s.reg x).toNat / 100, (s.reg x).toNat / 10 % 10, (s.reg x).toNat % 10])) →
    s.i.toNat + bytes.length ≤ 4096 → s.pc.toNat + 1 ≤ 4095 → exec i s = .next t →
    let now (a : Nat) : Byte := if s.i.toNat ≤ a ∧ a < s.i.toNat + bytes.length then bytes.getD (a - s.i.toNat) 0
      else s.readByte a
    ∃ w u, fetch t = .ok (w, u) ∧
      w.toNat = (now s.pc.toNat).toNat * 256 + (now (s.pc.toNat + 1)).toNat

/-! ## Control transfer (40_flow.md) -/

/-- R101: RET pops the return address into PC, or reports CallStackUnderflow on an empty stack and falls through. -/
def Obligations.RetPopsOrReports : Prop :=
  (∀ w, decodeWord w = .ret ↔ w = 0x00EE) ∧
  ∀ s : State,
    (s.sp = 0 → ∃ t, exec .ret s = .next t ∧ OnlyReports (.callStackUnderflow (s.pc - 2)) s t) ∧
    (0 < s.sp → s.sp ≤ 255 → ∃ t, exec .ret s = .next t ∧ s.stack[s.sp - 1]? = some t.pc ∧
      t = { s with sp := s.sp - 1, pc := t.pc } ∧ KeepsRegsBut [] s t ∧ KeepsMemory s t)

/-- R102, R104: CALL and SYS push PC, which is the address after them, and jump, or report CallStackOverflow with 255
entries on the stack and fall through. -/
def Obligations.CallAndSysPushAndJumpOrReport : Prop :=
  DecodesTo 0xF000 0x2000 (fun w => .call (nnnOf w)) ∧
  (∀ w : Word, w &&& 0xF000 = 0 → w ≠ 0x00E0 → w ≠ 0x00EE → decodeWord w = .sys (nnnOf w)) ∧
  ∀ (nnn : BitVec 12) (s : State) (i : Instr), i = .call nnn ∨ i = .sys nnn →
    (s.sp = 255 → ∃ t, exec i s = .next t ∧ OnlyReports (.callStackOverflow (s.pc - 2)) s t) ∧
    (s.sp < 255 → ∃ t, exec i s = .next t ∧ t.pc.toNat = nnn.toNat ∧ t.stack[s.sp]? = some s.pc ∧
      (∀ j, j ≠ s.sp → t.stack[j]? = s.stack[j]?) ∧
      t = { s with stack := t.stack, sp := s.sp + 1, pc := t.pc } ∧ KeepsRegsBut [] s t ∧ KeepsMemory s t)

/-- R103: JP sets PC to its address. -/
def Obligations.JumpSetsPc : Prop :=
  DecodesTo 0xF000 0x1000 (fun w => .jp (nnnOf w)) ∧
  ∀ (nnn : BitVec 12) (s : State), ∃ t, exec (.jp nnn) s = .next t ∧ t.pc.toNat = nnn.toNat ∧ ChangesOnlyPc s t

/-- R105, R106, R100: SE and SNE with an immediate skip two bytes when the register equals, or differs from, it. -/
def Obligations.SkipsOnImmediate : Prop :=
  DecodesTo 0xF000 0x3000 (fun w => .seImm (xOf w) (nnOf w)) ∧
  DecodesTo 0xF000 0x4000 (fun w => .sneImm (xOf w) (nnOf w)) ∧
  ∀ (x : Reg) (nn : Byte) (s : State),
    (∃ t, exec (.seImm x nn) s = .next t ∧ ChangesOnlyPc s t ∧
      t.pc.toNat = (if (s.reg x).toNat = nn.toNat then (s.pc.toNat + 2) % 65536 else s.pc.toNat)) ∧
    (∃ t, exec (.sneImm x nn) s = .next t ∧ ChangesOnlyPc s t ∧
      t.pc.toNat = (if (s.reg x).toNat = nn.toNat then s.pc.toNat else (s.pc.toNat + 2) % 65536))

/-- R107, R108, R100: SE and SNE with two registers skip two bytes when they are equal, or differ. -/
def Obligations.SkipsOnRegisters : Prop :=
  DecodesTo 0xF00F 0x5000 (fun w => .seReg (xOf w) (yOf w)) ∧
  DecodesTo 0xF00F 0x9000 (fun w => .sneReg (xOf w) (yOf w)) ∧
  (∀ w : Word, (w &&& 0xF000 = 0x5000 ∨ w &&& 0xF000 = 0x9000) → w &&& 0x000F ≠ 0 → decodeWord w = .unsupported w) ∧
  ∀ (x y : Reg) (s : State),
    (∃ t, exec (.seReg x y) s = .next t ∧ ChangesOnlyPc s t ∧
      t.pc.toNat = (if (s.reg x).toNat = (s.reg y).toNat then (s.pc.toNat + 2) % 65536 else s.pc.toNat)) ∧
    (∃ t, exec (.sneReg x y) s = .next t ∧ ChangesOnlyPc s t ∧
      t.pc.toNat = (if (s.reg x).toNat = (s.reg y).toNat then s.pc.toNat else (s.pc.toNat + 2) % 65536))

/-- R109, R110: JPO adds V0 under COSMACVIP and the register named by the top nibble of its address under SUPERCHIP,
without wrap; under CHIP48 it does what BNNN_CHIP48 selects. -/
def Obligations.JumpWithOffsetFollowsTheDialect : Prop :=
  DecodesTo 0xF000 0xB000 (fun w => .jpo (nnnOf w)) ∧
  ∀ (nnn : BitVec 12) (s : State),
    let v0 := nnn.toNat + (s.reg 0).toNat
    let vx := nnn.toNat + (s.reg (nnn.extractLsb' 8 4).toFin).toNat
    let jumps (target : Nat) := ∃ t, exec (.jpo nnn) s = .next t ∧ t.pc.toNat = target ∧ ChangesOnlyPc s t
    (s.cfg.dialect = .cosmacvip → jumps v0) ∧
    (s.cfg.dialect = .superchip → jumps vx) ∧
    (s.cfg.dialect = .chip48 →
      (s.cfg.bnnnChip48 = .fault → ∃ w : Word, w.toNat = 0xB000 + nnn.toNat ∧
        TakesFault (.jpo nnn) s (.undefinedJumpOffset (s.pc - 2) w)) ∧
      (s.cfg.bnnnChip48 = .sourceNoOp → exec (.jpo nnn) s = .next s) ∧
      (s.cfg.bnnnChip48 = .offsetV0 → jumps v0) ∧
      (s.cfg.bnnnChip48 = .offsetVX → jumps vx))

/-- 30_encoding.md R78: an unsupported word is a no-op that reports its address and word. -/
def Obligations.UnsupportedWordOnlyReports : Prop :=
  (∀ w : Word, listedWord w = false → decodeWord w = .unsupported w) ∧
  ∀ (w : Word) (s : State), ∃ t, exec (.unsupported w) s = .next t ∧
    OnlyReports (.unsupportedOpcode (s.pc - 2) w) s t

/-- The call stack returns addresses in exact reverse order and its depth comes back, for pushes within capacity
(10_state.md R31, R32; 95_test_vectors.md L1.4). -/
def Obligations.CallStackIsLastInFirstOut : Prop :=
  ∀ (addrs : List Word) (s : State), s.sp + addrs.length ≤ 255 →
    ∃ t, addrs.foldlM (fun u a => u.push a) s = some t ∧ t.sp = s.sp + addrs.length ∧
      ∃ u, addrs.reverse.foldlM (fun (v : State) a =>
          match v.pop with
          | some (b, v') => if b = a then some v' else none
          | none => none) t = some u ∧
        u.sp = s.sp

/-! ## Arithmetic and logic (41_alu.md) -/

/-- R121, R123: LD loads an immediate or copies a register. -/
def Obligations.LoadsWriteTheRegister : Prop :=
  DecodesTo 0xF000 0x6000 (fun w => .ldImm (xOf w) (nnOf w)) ∧
  DecodesTo 0xF00F 0x8000 (fun w => .ldReg (xOf w) (yOf w)) ∧
  ∀ (x y : Reg) (nn : Byte) (s : State),
    (∃ t, exec (.ldImm x nn) s = .next t ∧ t.reg x = nn ∧ ChangesOnlyRegs [x] s t) ∧
    (∃ t, exec (.ldReg x y) s = .next t ∧ t.reg x = s.reg y ∧ ChangesOnlyRegs [x] s t)

/-- R122: ADD with an immediate wraps modulo 256 and leaves VF alone unless VF is its destination. -/
def Obligations.AddImmediateWrapsWithoutFlag : Prop :=
  DecodesTo 0xF000 0x7000 (fun w => .addImm (xOf w) (nnOf w)) ∧
  ∀ (x : Reg) (nn : Byte) (s : State), ∃ t, exec (.addImm x nn) s = .next t ∧
    (t.reg x).toNat = ((s.reg x).toNat + nn.toNat) % 256 ∧ ChangesOnlyRegs [x] s t

/-- R124, R125, R126: OR, AND and XOR write the bitwise result, and under COSMACVIP only then clear VF. -/
def Obligations.LogicWritesResultAndClearsVfUnderCosmacvip : Prop :=
  DecodesTo 0xF00F 0x8001 (fun w => .orReg (xOf w) (yOf w)) ∧
  DecodesTo 0xF00F 0x8002 (fun w => .andReg (xOf w) (yOf w)) ∧
  DecodesTo 0xF00F 0x8003 (fun w => .xorReg (xOf w) (yOf w)) ∧
  ∀ (x y : Reg) (s : State) (i : Instr) (r : Byte),
    ((i = .orReg x y ∧ r = s.reg x ||| s.reg y) ∨ (i = .andReg x y ∧ r = s.reg x &&& s.reg y) ∨
      (i = .xorReg x y ∧ r = s.reg x ^^^ s.reg y)) →
    ∃ t, exec i s = .next t ∧
      (s.cfg.dialect = .cosmacvip → (x ≠ vf → t.reg x = r) ∧ t.reg vf = 0 ∧ ChangesOnlyRegs [x, vf] s t) ∧
      (s.cfg.dialect ≠ .cosmacvip → t.reg x = r ∧ ChangesOnlyRegs [x] s t)

/-- R127: ADD writes the sum modulo 256 and then the carry to VF, in every dialect. -/
def Obligations.AddRegistersWritesSumThenCarry : Prop :=
  DecodesTo 0xF00F 0x8004 (fun w => .addReg (xOf w) (yOf w)) ∧
  ∀ (x y : Reg) (s : State), ∃ t, exec (.addReg x y) s = .next t ∧
    (x ≠ vf → (t.reg x).toNat = ((s.reg x).toNat + (s.reg y).toNat) % 256) ∧
    (t.reg vf).toNat = (if 255 < (s.reg x).toNat + (s.reg y).toNat then 1 else 0) ∧ ChangesOnlyRegs [x, vf] s t

/-- R128, R130: SUB and SUBN write the difference modulo 256 and then no-borrow (minuend at least subtrahend) to VF. -/
def Obligations.SubtractWritesDifferenceThenNoBorrow : Prop :=
  DecodesTo 0xF00F 0x8005 (fun w => .sub (xOf w) (yOf w)) ∧
  DecodesTo 0xF00F 0x8007 (fun w => .subn (xOf w) (yOf w)) ∧
  ∀ (x y : Reg) (s : State) (i : Instr) (a b : Nat),
    ((i = .sub x y ∧ a = (s.reg x).toNat ∧ b = (s.reg y).toNat) ∨
      (i = .subn x y ∧ a = (s.reg y).toNat ∧ b = (s.reg x).toNat)) →
    ∃ t, exec i s = .next t ∧ (x ≠ vf → (t.reg x).toNat = (a + 256 - b) % 256) ∧
      (t.reg vf).toNat = (if b ≤ a then 1 else 0) ∧ ChangesOnlyRegs [x, vf] s t

/-- R129, R131: SHR and SHL shift V[y] under COSMACVIP and V[x] otherwise by one into V[x], and then write the bit
shifted out to VF. -/
def Obligations.ShiftsWriteResultThenBitShiftedOut : Prop :=
  DecodesTo 0xF00F 0x8006 (fun w => .shr (xOf w) (yOf w)) ∧
  DecodesTo 0xF00F 0x800E (fun w => .shl (xOf w) (yOf w)) ∧
  ∀ (x y : Reg) (s : State) (v : Nat),
    v = (if s.cfg.dialect = .cosmacvip then (s.reg y).toNat else (s.reg x).toNat) →
    (∃ t, exec (.shr x y) s = .next t ∧ (x ≠ vf → (t.reg x).toNat = v / 2) ∧ (t.reg vf).toNat = v % 2 ∧
      ChangesOnlyRegs [x, vf] s t) ∧
    (∃ t, exec (.shl x y) s = .next t ∧ (x ≠ vf → (t.reg x).toNat = v * 2 % 256) ∧ (t.reg vf).toNat = v / 128 ∧
      ChangesOnlyRegs [x, vf] s t)

/-- R134, R135: RND writes a free byte masked by its immediate, and takes one draw. That the byte is the opaque
Config.randomByte of a draw counter, and that the counter goes up by one, is the model's form (log 1, DESIGN CHOICE);
the byte is opaque, so the statement holds for every value of it. -/
def Obligations.RandomByteIsMasked : Prop :=
  DecodesTo 0xF000 0xC000 (fun w => .rnd (xOf w) (nnOf w)) ∧
  ∀ (x : Reg) (nn : Byte) (s : State), ∃ t, exec (.rnd x nn) s = .next t ∧
    t.reg x = Config.randomByte s.draws &&& nn ∧ (nn = 0 → t.reg x = 0) ∧
    t = { s with v := t.v, draws := s.draws + 1 } ∧ KeepsRegsBut [x] s t ∧ KeepsMemory s t

/-! ## Index register and memory transfers (42_index_memory.md) -/

/-- R140, R141, R142: LD I loads the address, ADD I adds modulo 65536 without a flag, LD F points at the glyph of the
low nibble. -/
def Obligations.IndexInstructionsWriteOnlyI : Prop :=
  DecodesTo 0xF000 0xA000 (fun w => .ldI (nnnOf w)) ∧
  DecodesTo 0xF0FF 0xF01E (fun w => .addI (xOf w)) ∧
  DecodesTo 0xF0FF 0xF029 (fun w => .ldF (xOf w)) ∧
  ∀ (nnn : BitVec 12) (x : Reg) (s : State),
    (∃ t, exec (.ldI nnn) s = .next t ∧ t.i.toNat = nnn.toNat ∧ ChangesOnlyI s t) ∧
    (∃ t, exec (.addI x) s = .next t ∧ t.i.toNat = (s.i.toNat + (s.reg x).toNat) % 65536 ∧ ChangesOnlyI s t) ∧
    (∃ t, exec (.ldF x) s = .next t ∧ t.i.toNat = 0x50 + 5 * ((s.reg x).toNat % 16) ∧ ChangesOnlyI s t)

/-- R143: LD B stores hundreds, tens and ones of V[x] at I, I + 1, I + 2 and nothing else, or raises
MemoryBoundsError. -/
def Obligations.DecimalDigitsAreStoredAtI : Prop :=
  DecodesTo 0xF0FF 0xF033 (fun w => .ldB (xOf w)) ∧
  ∀ (x : Reg) (s : State),
    (s.i.toNat + 2 ≤ 4095 → Memory.wf s.mem = true → ∃ t, exec (.ldB x) s = .next t ∧
      (t.readByte s.i.toNat).toNat = (s.reg x).toNat / 100 ∧
      (t.readByte (s.i.toNat + 1)).toNat = (s.reg x).toNat / 10 % 10 ∧
      (t.readByte (s.i.toNat + 2)).toNat = (s.reg x).toNat % 10 ∧
      t = { s with mem := t.mem } ∧ KeepsRegsBut [] s t ∧ StoresOnly s.i.toNat 3 s t) ∧
    (4095 < s.i.toNat + 2 → ∃ w, decodeWord w = .ldB x ∧
      TakesFault (.ldB x) s (.memoryBoundsError (max s.i.toNat 4096) (s.pc - 2) (some w)))

/-- R144: LD [I] stores V0..Vx from I up and nothing else, I goes to I + x + 1 under COSMACVIP only, or
MemoryBoundsError is raised. -/
def Obligations.RegistersAreStoredFromI : Prop :=
  DecodesTo 0xF0FF 0xF055 (fun w => .stRegs (xOf w)) ∧
  ∀ (x : Reg) (s : State),
    (s.i.toNat + x.val ≤ 4095 → Memory.wf s.mem = true → ∃ t, exec (.stRegs x) s = .next t ∧
      (∀ k : Reg, k ≤ x → t.readByte (s.i.toNat + k.val) = s.reg k) ∧
      t.i.toNat = (if s.cfg.dialect = .cosmacvip then (s.i.toNat + x.val + 1) % 65536 else s.i.toNat) ∧
      t = { s with mem := t.mem, i := t.i } ∧ KeepsRegsBut [] s t ∧ StoresOnly s.i.toNat (x.val + 1) s t) ∧
    (4095 < s.i.toNat + x.val → ∃ w, decodeWord w = .stRegs x ∧
      TakesFault (.stRegs x) s (.memoryBoundsError (max s.i.toNat 4096) (s.pc - 2) (some w)))

/-- R145: LD Vx, [I] loads V0..Vx from I up and no other register, I goes to I + x + 1 under COSMACVIP only, or
MemoryBoundsError is raised. -/
def Obligations.RegistersAreLoadedFromI : Prop :=
  DecodesTo 0xF0FF 0xF065 (fun w => .ldRegs (xOf w)) ∧
  ∀ (x : Reg) (s : State),
    (s.i.toNat + x.val ≤ 4095 → ∃ t, exec (.ldRegs x) s = .next t ∧
      (∀ k : Reg, k ≤ x → t.reg k = s.readByte (s.i.toNat + k.val)) ∧ (∀ k : Reg, x < k → t.reg k = s.reg k) ∧
      t.i.toNat = (if s.cfg.dialect = .cosmacvip then (s.i.toNat + x.val + 1) % 65536 else s.i.toNat) ∧
      t = { s with v := t.v, i := t.i } ∧ KeepsMemory s t) ∧
    (4095 < s.i.toNat + x.val → ∃ w, decodeWord w = .ldRegs x ∧
      TakesFault (.ldRegs x) s (.memoryBoundsError (max s.i.toNat 4096) (s.pc - 2) (some w)))

/-- R145, "inverse of FX55": registers stored by FX55 come back when FX65 reads from the same I, whatever the
registers held in between. -/
def Obligations.LoadInvertsStore : Prop :=
  ∀ (x : Reg) (s t : State) (v : Vector Byte 16), Memory.wf s.mem = true → s.i.toNat + x.val ≤ 4095 →
    exec (.stRegs x) s = .next t →
    ∃ u, exec (.ldRegs x) { t with i := s.i, v := v } = .next u ∧ ∀ k : Reg, k ≤ x → u.reg k = s.reg k

/-! ## Display (43_display.md) -/

/-- R160, R161: CLS unsets every pixel and touches nothing else; only the word 0x00E0 is CLS. -/
def Obligations.ClearScreenUnsetsEveryPixel : Prop :=
  (∀ w, decodeWord w = .cls ↔ w = 0x00E0) ∧
  ∀ s : State, ∃ t, exec .cls s = .next t ∧ (∀ px py, t.display.pixel px py = false) ∧
    t = { s with display := t.display } ∧ KeepsRegsBut [] s t ∧ KeepsMemory s t

/-- R162: DrawSprite, a loop with early stops, inverts exactly the pixels under a 1 bit of the sprite with its anchor
wrapped and its edges clipped, and returns whether one of them was set. -/
def Obligations.DrawSpriteIsXorOfTheClippedSprite : Prop :=
  ∀ (d : Display) (x y : Byte) (bytes : List Byte),
    (∀ px py, px < 64 → py < 32 →
      (drawSprite d x y bytes).1.pixel px py = (d.pixel px py ^^ covered x y bytes px py)) ∧
    ((drawSprite d x y bytes).2 = true ↔
      ∃ px py, px < 64 ∧ py < 32 ∧ d.pixel px py = true ∧ covered x y bytes px py = true)

/-- R163: DRW draws the n bytes from I at (V[x], V[y]) and writes the collision flag to VF, or takes MemoryBoundsError
when one of the n bytes lies above 4095. -/
def Obligations.DrawWritesDisplayAndCollision : Prop :=
  DecodesTo 0xF000 0xD000 (fun w => .drw (xOf w) (yOf w) (nOf w)) ∧
  ∀ (x y : Reg) (n : Fin 16) (s : State),
    let bytes := (List.range n.val).map fun k => s.readByte (s.i.toNat + k)
    let drawn := drawSprite s.display (s.reg x) (s.reg y) bytes
    ((n = 0 ∨ s.i.toNat + n.val - 1 ≤ 4095) → ∃ t, exec (.drw x y n) s = .next t ∧ t.display = drawn.1 ∧
      t.reg vf = (if drawn.2 then 1 else 0) ∧ t = { s with v := t.v, display := t.display } ∧
      KeepsRegsBut [vf] s t ∧ KeepsMemory s t) ∧
    (n ≠ 0 → 4095 < s.i.toNat + n.val - 1 → ∃ w, decodeWord w = .drw x y n ∧
      TakesFault (.drw x y n) s (.memoryBoundsError (max s.i.toNat 4096) (s.pc - 2) (some w)))

/-- R163: drawing the same sprite twice at the same place restores the display; when it was clear before, the second
draw reports a collision exactly if the sprite has a 1 bit on a pixel inside the screen. -/
def Obligations.DrawingTwiceRestoresTheDisplay : Prop :=
  ∀ (x y : Reg) (n : Fin 16) (s t : State), x ≠ vf → y ≠ vf → (n = 0 ∨ s.i.toNat + n.val - 1 ≤ 4095) →
    exec (.drw x y n) s = .next t →
    ∃ u, exec (.drw x y n) t = .next u ∧ u.display = s.display ∧
      ((∀ px py, s.display.pixel px py = false) →
        (u.reg vf = 1 ↔ ∃ px py, px < 64 ∧ py < 32 ∧
          covered (s.reg x) (s.reg y) ((List.range n.val).map fun k => s.readByte (s.i.toNat + k)) px py = true))

/-! ## Keys and timers (44_keys_timers.md) -/

/-- R180, R182, R183: SKP skips if the key V[x] is pressed, SKNP if it is not; a value of 16 or more is no key and
counts as not pressed. -/
def Obligations.KeySkipsTestTheKeypad : Prop :=
  DecodesTo 0xF0FF 0xE09E (fun w => .skp (xOf w)) ∧
  DecodesTo 0xF0FF 0xE0A1 (fun w => .sknp (xOf w)) ∧
  ∀ (x : Reg) (s : State) (down : Bool),
    ((16 ≤ (s.reg x).toNat ∧ down = false) ∨ s.keys[(s.reg x).toNat]? = some down) →
    (∃ t, exec (.skp x) s = .next t ∧ ChangesOnlyPc s t ∧
      t.pc.toNat = (if down then (s.pc.toNat + 2) % 65536 else s.pc.toNat)) ∧
    (∃ t, exec (.sknp x) s = .next t ∧ ChangesOnlyPc s t ∧
      t.pc.toNat = (if down then s.pc.toNat else (s.pc.toNat + 2) % 65536))

/-- R184, R185, R186: FX07 reads the delay timer, FX15 and FX18 set a timer; FX18 does not touch TONE. -/
def Obligations.TimerInstructionsMoveTheTimers : Prop :=
  DecodesTo 0xF0FF 0xF007 (fun w => .ldVxDt (xOf w)) ∧
  DecodesTo 0xF0FF 0xF015 (fun w => .ldDt (xOf w)) ∧
  DecodesTo 0xF0FF 0xF018 (fun w => .ldSt (xOf w)) ∧
  ∀ (x : Reg) (s : State),
    (∃ t, exec (.ldVxDt x) s = .next t ∧ t.reg x = s.dt ∧ ChangesOnlyRegs [x] s t) ∧
    (∃ t, exec (.ldDt x) s = .next t ∧ t.dt = s.reg x ∧ t = { s with dt := t.dt } ∧ KeepsRegsBut [] s t ∧
      KeepsMemory s t) ∧
    (∃ t, exec (.ldSt x) s = .next t ∧ t.st = s.reg x ∧ t.tone = s.tone ∧ t = { s with st := t.st } ∧
      KeepsRegsBut [] s t ∧ KeepsMemory s t)

/-- R187: FX0A holds PC on itself until the press and the release have been delivered, then stores the key code. -/
def Obligations.KeyWaitHoldsThenStoresTheKey : Prop :=
  DecodesTo 0xF0FF 0xF00A (fun w => .ldVxK (xOf w)) ∧
  ∀ (x : Reg) (s : State),
    (s.kw = .idle → ∃ t, exec (.ldVxK x) s = .next t ∧ t = { s with kw := .waitingForPress, pc := s.pc - 2 } ∧
      KeepsRegsBut [] s t ∧ KeepsMemory s t) ∧
    ((s.kw = .waitingForPress ∨ ∃ k, s.kw = .waitingForRelease k false) →
      ∃ t, exec (.ldVxK x) s = .next t ∧ t.pc = s.pc - 2 ∧ ChangesOnlyPc s t) ∧
    (∀ k, s.kw = .waitingForRelease k true → ∃ t, exec (.ldVxK x) s = .next t ∧ (t.reg x).toNat = k.val ∧
      t = { s with v := t.v, kw := .idle } ∧ KeepsRegsBut [x] s t ∧ KeepsMemory s t)

/-- R181: what a key edge does to the keypad and the key wait. -/
def Obligations.KeyEdgesUpdateKeypadAndWait : Prop :=
  ∀ (s : State) (k : Fin 16),
    (∃ t, s.deliverEdge (.press k) = t ∧ t.keys[k.val]? = some true ∧
      (∀ j, j ≠ k.val → t.keys[j]? = s.keys[j]?) ∧
      (s.kw = .waitingForPress → t.kw = .waitingForRelease k false) ∧ (s.kw ≠ .waitingForPress → t.kw = s.kw) ∧
      t = { s with keys := t.keys, kw := t.kw }) ∧
    (∃ t, s.deliverEdge (.release k) = t ∧ t.keys[k.val]? = some false ∧
      (∀ j, j ≠ k.val → t.keys[j]? = s.keys[j]?) ∧
      (s.kw = .waitingForRelease k false → t.kw = .waitingForRelease k true) ∧
      (s.kw ≠ .waitingForRelease k false → t.kw = s.kw) ∧ t = { s with keys := t.keys, kw := t.kw })

/-- R181, R187: a press and a release that arrive before one pass complete a wait in that pass: the key code is in V[x],
KW is Idle and PC is past the FX0A. -/
def Obligations.PressAndReleaseInOnePassCompleteTheWait : Prop :=
  ∀ (s : State) (x : Reg) (k : Fin 16) (advance : Nat) (rest : List Input),
    s.status = .running → s.throttlePeriod = none → s.kw = .waitingForPress → s.pc.toNat + 1 ≤ 4095 →
    decodeWord (wordAtPc s) = .ldVxK x →
    s.inputs = .pass { advance := advance, edges := [.press k, .release k], quit := false } :: rest →
    ∃ t, step s = .next t ∧ (t.reg x).toNat = k.val ∧ t.kw = .idle ∧ t.pc = s.pc + 2 ∧ KeepsRegsBut [x] s t ∧
      KeepsMemory s t ∧ t.pressed (t.reg x) = false

end
end

