-- ==== Sys2Proof/Laws/State.lean ====
section
/-! SUPPORT. One lemma per field per named update of the state, so that no proof unfolds a record update. -/

namespace Sys2Proof.Machine.State

variable (s : State)

/-! `setReg` -/

@[simp] theorem setReg_mem (x : Reg) (b : Byte) : (s.setReg x b).mem = s.mem := rfl
@[simp] theorem setReg_v (x : Reg) (b : Byte) : (s.setReg x b).v = s.v.set x.val b := rfl
@[simp] theorem setReg_i (x : Reg) (b : Byte) : (s.setReg x b).i = s.i := rfl
@[simp] theorem setReg_pc (x : Reg) (b : Byte) : (s.setReg x b).pc = s.pc := rfl
@[simp] theorem setReg_dt (x : Reg) (b : Byte) : (s.setReg x b).dt = s.dt := rfl
@[simp] theorem setReg_st (x : Reg) (b : Byte) : (s.setReg x b).st = s.st := rfl
@[simp] theorem setReg_stack (x : Reg) (b : Byte) : (s.setReg x b).stack = s.stack := rfl
@[simp] theorem setReg_sp (x : Reg) (b : Byte) : (s.setReg x b).sp = s.sp := rfl
@[simp] theorem setReg_display (x : Reg) (b : Byte) : (s.setReg x b).display = s.display := rfl
@[simp] theorem setReg_keys (x : Reg) (b : Byte) : (s.setReg x b).keys = s.keys := rfl
@[simp] theorem setReg_kw (x : Reg) (b : Byte) : (s.setReg x b).kw = s.kw := rfl
@[simp] theorem setReg_tone (x : Reg) (b : Byte) : (s.setReg x b).tone = s.tone := rfl
@[simp] theorem setReg_lastTimer (x : Reg) (b : Byte) : (s.setReg x b).lastTimer = s.lastTimer := rfl
@[simp] theorem setReg_lastFrame (x : Reg) (b : Byte) : (s.setReg x b).lastFrame = s.lastFrame := rfl
@[simp] theorem setReg_lastCpu (x : Reg) (b : Byte) : (s.setReg x b).lastCpu = s.lastCpu := rfl
@[simp] theorem setReg_status (x : Reg) (b : Byte) : (s.setReg x b).status = s.status := rfl
@[simp] theorem setReg_cfg (x : Reg) (b : Byte) : (s.setReg x b).cfg = s.cfg := rfl
@[simp] theorem setReg_clock (x : Reg) (b : Byte) : (s.setReg x b).clock = s.clock := rfl
@[simp] theorem setReg_inputs (x : Reg) (b : Byte) : (s.setReg x b).inputs = s.inputs := rfl
@[simp] theorem setReg_draws (x : Reg) (b : Byte) : (s.setReg x b).draws = s.draws := rfl
@[simp] theorem setReg_diag (x : Reg) (b : Byte) : (s.setReg x b).diag = s.diag := rfl
@[simp] theorem setReg_frames (x : Reg) (b : Byte) : (s.setReg x b).frames = s.frames := rfl

/-! `setPc` -/

@[simp] theorem setPc_mem (a : Word) : (s.setPc a).mem = s.mem := rfl
@[simp] theorem setPc_v (a : Word) : (s.setPc a).v = s.v := rfl
@[simp] theorem setPc_i (a : Word) : (s.setPc a).i = s.i := rfl
@[simp] theorem setPc_pc (a : Word) : (s.setPc a).pc = a := rfl
@[simp] theorem setPc_dt (a : Word) : (s.setPc a).dt = s.dt := rfl
@[simp] theorem setPc_st (a : Word) : (s.setPc a).st = s.st := rfl
@[simp] theorem setPc_stack (a : Word) : (s.setPc a).stack = s.stack := rfl
@[simp] theorem setPc_sp (a : Word) : (s.setPc a).sp = s.sp := rfl
@[simp] theorem setPc_display (a : Word) : (s.setPc a).display = s.display := rfl
@[simp] theorem setPc_keys (a : Word) : (s.setPc a).keys = s.keys := rfl
@[simp] theorem setPc_kw (a : Word) : (s.setPc a).kw = s.kw := rfl
@[simp] theorem setPc_tone (a : Word) : (s.setPc a).tone = s.tone := rfl
@[simp] theorem setPc_lastTimer (a : Word) : (s.setPc a).lastTimer = s.lastTimer := rfl
@[simp] theorem setPc_lastFrame (a : Word) : (s.setPc a).lastFrame = s.lastFrame := rfl
@[simp] theorem setPc_lastCpu (a : Word) : (s.setPc a).lastCpu = s.lastCpu := rfl
@[simp] theorem setPc_status (a : Word) : (s.setPc a).status = s.status := rfl
@[simp] theorem setPc_cfg (a : Word) : (s.setPc a).cfg = s.cfg := rfl
@[simp] theorem setPc_clock (a : Word) : (s.setPc a).clock = s.clock := rfl
@[simp] theorem setPc_inputs (a : Word) : (s.setPc a).inputs = s.inputs := rfl
@[simp] theorem setPc_draws (a : Word) : (s.setPc a).draws = s.draws := rfl
@[simp] theorem setPc_diag (a : Word) : (s.setPc a).diag = s.diag := rfl
@[simp] theorem setPc_frames (a : Word) : (s.setPc a).frames = s.frames := rfl

/-! `setI` -/

@[simp] theorem setI_mem (a : Word) : (s.setI a).mem = s.mem := rfl
@[simp] theorem setI_v (a : Word) : (s.setI a).v = s.v := rfl
@[simp] theorem setI_i (a : Word) : (s.setI a).i = a := rfl
@[simp] theorem setI_pc (a : Word) : (s.setI a).pc = s.pc := rfl
@[simp] theorem setI_dt (a : Word) : (s.setI a).dt = s.dt := rfl
@[simp] theorem setI_st (a : Word) : (s.setI a).st = s.st := rfl
@[simp] theorem setI_stack (a : Word) : (s.setI a).stack = s.stack := rfl
@[simp] theorem setI_sp (a : Word) : (s.setI a).sp = s.sp := rfl
@[simp] theorem setI_display (a : Word) : (s.setI a).display = s.display := rfl
@[simp] theorem setI_keys (a : Word) : (s.setI a).keys = s.keys := rfl
@[simp] theorem setI_kw (a : Word) : (s.setI a).kw = s.kw := rfl
@[simp] theorem setI_tone (a : Word) : (s.setI a).tone = s.tone := rfl
@[simp] theorem setI_lastTimer (a : Word) : (s.setI a).lastTimer = s.lastTimer := rfl
@[simp] theorem setI_lastFrame (a : Word) : (s.setI a).lastFrame = s.lastFrame := rfl
@[simp] theorem setI_lastCpu (a : Word) : (s.setI a).lastCpu = s.lastCpu := rfl
@[simp] theorem setI_status (a : Word) : (s.setI a).status = s.status := rfl
@[simp] theorem setI_cfg (a : Word) : (s.setI a).cfg = s.cfg := rfl
@[simp] theorem setI_clock (a : Word) : (s.setI a).clock = s.clock := rfl
@[simp] theorem setI_inputs (a : Word) : (s.setI a).inputs = s.inputs := rfl
@[simp] theorem setI_draws (a : Word) : (s.setI a).draws = s.draws := rfl
@[simp] theorem setI_diag (a : Word) : (s.setI a).diag = s.diag := rfl
@[simp] theorem setI_frames (a : Word) : (s.setI a).frames = s.frames := rfl

/-! `report` -/

@[simp] theorem report_mem (d : Diagnostic) : (s.report d).mem = s.mem := rfl
@[simp] theorem report_v (d : Diagnostic) : (s.report d).v = s.v := rfl
@[simp] theorem report_i (d : Diagnostic) : (s.report d).i = s.i := rfl
@[simp] theorem report_pc (d : Diagnostic) : (s.report d).pc = s.pc := rfl
@[simp] theorem report_dt (d : Diagnostic) : (s.report d).dt = s.dt := rfl
@[simp] theorem report_st (d : Diagnostic) : (s.report d).st = s.st := rfl
@[simp] theorem report_stack (d : Diagnostic) : (s.report d).stack = s.stack := rfl
@[simp] theorem report_sp (d : Diagnostic) : (s.report d).sp = s.sp := rfl
@[simp] theorem report_display (d : Diagnostic) : (s.report d).display = s.display := rfl
@[simp] theorem report_keys (d : Diagnostic) : (s.report d).keys = s.keys := rfl
@[simp] theorem report_kw (d : Diagnostic) : (s.report d).kw = s.kw := rfl
@[simp] theorem report_tone (d : Diagnostic) : (s.report d).tone = s.tone := rfl
@[simp] theorem report_lastTimer (d : Diagnostic) : (s.report d).lastTimer = s.lastTimer := rfl
@[simp] theorem report_lastFrame (d : Diagnostic) : (s.report d).lastFrame = s.lastFrame := rfl
@[simp] theorem report_lastCpu (d : Diagnostic) : (s.report d).lastCpu = s.lastCpu := rfl
@[simp] theorem report_status (d : Diagnostic) : (s.report d).status = s.status := rfl
@[simp] theorem report_cfg (d : Diagnostic) : (s.report d).cfg = s.cfg := rfl
@[simp] theorem report_clock (d : Diagnostic) : (s.report d).clock = s.clock := rfl
@[simp] theorem report_inputs (d : Diagnostic) : (s.report d).inputs = s.inputs := rfl
@[simp] theorem report_draws (d : Diagnostic) : (s.report d).draws = s.draws := rfl
@[simp] theorem report_diag (d : Diagnostic) : (s.report d).diag = s.diag ++ [d] := rfl
@[simp] theorem report_frames (d : Diagnostic) : (s.report d).frames = s.frames := rfl

/-! `takeFault` -/

@[simp] theorem takeFault_mem (a : Word) (f : Fault) : (s.takeFault a f).mem = s.mem := rfl
@[simp] theorem takeFault_v (a : Word) (f : Fault) : (s.takeFault a f).v = s.v := rfl
@[simp] theorem takeFault_i (a : Word) (f : Fault) : (s.takeFault a f).i = s.i := rfl
@[simp] theorem takeFault_pc (a : Word) (f : Fault) : (s.takeFault a f).pc = a := rfl
@[simp] theorem takeFault_dt (a : Word) (f : Fault) : (s.takeFault a f).dt = s.dt := rfl
@[simp] theorem takeFault_st (a : Word) (f : Fault) : (s.takeFault a f).st = s.st := rfl
@[simp] theorem takeFault_stack (a : Word) (f : Fault) : (s.takeFault a f).stack = s.stack := rfl
@[simp] theorem takeFault_sp (a : Word) (f : Fault) : (s.takeFault a f).sp = s.sp := rfl
@[simp] theorem takeFault_display (a : Word) (f : Fault) : (s.takeFault a f).display = s.display := rfl
@[simp] theorem takeFault_keys (a : Word) (f : Fault) : (s.takeFault a f).keys = s.keys := rfl
@[simp] theorem takeFault_kw (a : Word) (f : Fault) : (s.takeFault a f).kw = s.kw := rfl
@[simp] theorem takeFault_tone (a : Word) (f : Fault) : (s.takeFault a f).tone = s.tone := rfl
@[simp] theorem takeFault_lastTimer (a : Word) (f : Fault) : (s.takeFault a f).lastTimer = s.lastTimer := rfl
@[simp] theorem takeFault_lastFrame (a : Word) (f : Fault) : (s.takeFault a f).lastFrame = s.lastFrame := rfl
@[simp] theorem takeFault_lastCpu (a : Word) (f : Fault) : (s.takeFault a f).lastCpu = s.lastCpu := rfl
@[simp] theorem takeFault_status (a : Word) (f : Fault) : (s.takeFault a f).status = .faulted f := rfl
@[simp] theorem takeFault_cfg (a : Word) (f : Fault) : (s.takeFault a f).cfg = s.cfg := rfl
@[simp] theorem takeFault_clock (a : Word) (f : Fault) : (s.takeFault a f).clock = s.clock := rfl
@[simp] theorem takeFault_inputs (a : Word) (f : Fault) : (s.takeFault a f).inputs = s.inputs := rfl
@[simp] theorem takeFault_draws (a : Word) (f : Fault) : (s.takeFault a f).draws = s.draws := rfl
@[simp] theorem takeFault_diag (a : Word) (f : Fault) : (s.takeFault a f).diag = s.diag := rfl
@[simp] theorem takeFault_frames (a : Word) (f : Fault) : (s.takeFault a f).frames = s.frames := rfl

/-! Reading a byte looks at memory only. -/

@[simp] theorem readByte_setReg (x : Reg) (b : Byte) (a : Nat) : (s.setReg x b).readByte a = s.readByte a := rfl
@[simp] theorem readByte_setPc (p : Word) (a : Nat) : (s.setPc p).readByte a = s.readByte a := rfl
@[simp] theorem readByte_setI (p : Word) (a : Nat) : (s.setI p).readByte a = s.readByte a := rfl
@[simp] theorem readByte_report (d : Diagnostic) (a : Nat) : (s.report d).readByte a = s.readByte a := rfl

end Sys2Proof.Machine.State
end

