-- ==== Sys2Proof/Laws/Registers.lean ====
section
/-! SUPPORT. Reading a register after each way of writing one. -/

namespace Sys2Proof.Machine

variable (s : State)

theorem State.reg_eq (x : Reg) : s.reg x = s.v[x.val] := rfl

/-- A register write is seen in its own register and nowhere else. -/
theorem State.reg_setReg (x r : Reg) (b : Byte) : (s.setReg x b).reg r = if r = x then b else s.reg r := by
  simp only [State.reg, State.setReg, Vector.getElem_set]
  by_cases h : x = r
  · simp [h]
  · simp [Fin.val_ne_of_ne h, Ne.symm h]

@[simp] theorem State.reg_setReg_same (x : Reg) (b : Byte) : (s.setReg x b).reg x = b := by
  simp [State.reg_setReg]

theorem State.reg_setReg_other {x r : Reg} (h : r ≠ x) (b : Byte) : (s.setReg x b).reg r = s.reg r := by
  simp [State.reg_setReg, h]

@[simp] theorem State.reg_setPc (a : Word) (r : Reg) : (s.setPc a).reg r = s.reg r := rfl
@[simp] theorem State.reg_setI (a : Word) (r : Reg) : (s.setI a).reg r = s.reg r := rfl
@[simp] theorem State.reg_report (d : Diagnostic) (r : Reg) : (s.report d).reg r = s.reg r := rfl

/-- A write of register `x` is a state that differs in `v` only. -/
theorem State.setReg_eq (x : Reg) (b : Byte) : s.setReg x b = { s with v := (s.setReg x b).v } := rfl

/-- Result and flag: VF holds the flag, `x` the result unless it is VF, and the rest is as before. -/
theorem State.reg_setRegAndFlag (x r : Reg) (p : Byte × Byte) :
    (s.setRegAndFlag x p).reg r = if r = vf then p.2 else if r = x then p.1 else s.reg r := by
  simp [State.setRegAndFlag, State.reg_setReg]

/-- A result with its flag changes `v` only. -/
theorem State.setRegAndFlag_eq (x : Reg) (p : Byte × Byte) :
    s.setRegAndFlag x p = { s with v := (s.setRegAndFlag x p).v } := rfl

/-- A logic result: VF is cleared last where the dialect does so. -/
theorem State.reg_setRegLogic (x r : Reg) (b : Byte) :
    (s.setRegLogic x b).reg r =
      if r = vf ∧ logicClearsVF s.cfg.dialect = true then 0 else if r = x then b else s.reg r := by
  unfold State.setRegLogic
  split <;> rename_i h <;> simp [State.reg_setReg, h]

/-- A logic result changes `v` only. -/
theorem State.setRegLogic_eq (x : Reg) (b : Byte) : s.setRegLogic x b = { s with v := (s.setRegLogic x b).v } := by
  unfold State.setRegLogic
  split <;> rfl

/-- Loading a list into the registers from `k` up. -/
theorem getElem_setRegsFrom (v : Vector Byte 16) (k : Nat) (bs : List Byte) (r : Nat) (hr : r < 16) :
    (setRegsFrom v k bs)[r] = if k ≤ r ∧ r < k + bs.length then bs.getD (r - k) 0 else v[r] := by
  induction bs generalizing v k with
  | nil => simp [setRegsFrom, Nat.not_lt.2]
  | cons b rest ih =>
    rw [setRegsFrom, ih, Vector.getElem_setIfInBounds]
    rcases Nat.lt_trichotomy r k with h | h | h
    · simp [Nat.not_le.2 h, Nat.ne_of_gt h, show ¬ k + 1 ≤ r by omega]
    · subst h; simp
    · have e : r - k = (r - (k + 1)) + 1 := by omega
      simp [e, show k + 1 ≤ r by omega, show k ≤ r by omega, Nat.ne_of_lt h,
        show r < k + 1 + rest.length ↔ r < k + (rest.length + 1) by omega]

end Sys2Proof.Machine
end

