-- ==== Sys2Proof/Laws/Arithmetic.lean ====
section
/-! SUPPORT. The flag computations and the glyph address as arithmetic on numbers. -/

namespace Sys2Proof.Machine

theorem toNat_addWithCarry_fst (a b : Byte) : (addWithCarry a b).1.toNat = (a.toNat + b.toNat) % 256 := by
  simp [addWithCarry]

theorem toNat_addWithCarry_snd (a b : Byte) :
    (addWithCarry a b).2.toNat = if 255 < a.toNat + b.toNat then 1 else 0 := by
  have := a.isLt
  have := b.isLt
  simp only [addWithCarry, BitVec.toNat_add, BitVec.toNat_setWidth]
  split <;> split <;> simp <;> omega

/-- The exact difference of 8XY5 and 8XY7. -/
theorem toNat_minuend_sub (a b : Byte) :
    ((zext16 a ||| 0x100) - zext16 b).toNat = a.toNat + 256 - b.toNat := by
  have ha := a.isLt
  have hb := b.isLt
  have e : (zext16 a ||| 0x100).toNat = a.toNat + 256 := by
    have : zext16 a ||| 0x100#16 = zext16 a + 0x100#16 := by
      rw [BitVec.add_eq_or_of_and_eq_zero]
      ext i hi
      interval_cases i <;> simp
    rw [BitVec.ofNat_eq_ofNat, this]
    simp
    omega
  have hle : zext16 b ≤ zext16 a ||| 0x100 := by
    rw [BitVec.le_def, e]
    simp
    omega
  rw [BitVec.toNat_sub_of_le hle, e]
  simp
  omega

theorem toNat_subWithNoBorrow_fst (a b : Byte) :
    (subWithNoBorrow a b).1.toNat = (a.toNat + 256 - b.toNat) % 256 := by
  rw [← toNat_minuend_sub]
  exact BitVec.toNat_setWidth _ _

theorem toNat_subWithNoBorrow_snd (a b : Byte) :
    (subWithNoBorrow a b).2.toNat = if b.toNat ≤ a.toNat then 1 else 0 := by
  have ha := a.isLt
  have hb := b.isLt
  have d := toNat_minuend_sub a b
  simp only [subWithNoBorrow, BitVec.getLsbD, Nat.testBit_eq_decide_div_mod_eq]
  rw [d]
  split <;> split <;> simp at * <;> omega

theorem toNat_shiftRightOut (v : Byte) :
    (shiftRightOut v).1.toNat = v.toNat / 2 ∧ (shiftRightOut v).2.toNat = v.toNat % 2 := by
  simp [shiftRightOut, Nat.shiftRight_eq_div_pow]

theorem toNat_shiftLeftOut (v : Byte) :
    (shiftLeftOut v).1.toNat = v.toNat * 2 % 256 ∧ (shiftLeftOut v).2.toNat = v.toNat / 128 := by
  simp [shiftLeftOut, Nat.shiftLeft_eq, Nat.shiftRight_eq_div_pow]

/-- The source of a shift is V[y] under COSMACVIP and V[x] otherwise. -/
theorem shiftReg_eq (d : Dialect) (x y : Reg) : shiftReg d x y = if d = .cosmacvip then y else x := by
  cases d <;> rfl

theorem toNat_glyphAddress (v : Byte) : (glyphAddress v).toNat = 0x50 + 5 * (v.toNat % 16) := by
  have := v.isLt
  have e : (v &&& 0x0F).toNat = v.toNat % 16 := by
    rw [BitVec.toNat_and]
    exact Nat.and_two_pow_sub_one_eq_mod _ 4
  simp only [glyphAddress, BitVec.toNat_add, BitVec.toNat_mul, BitVec.toNat_setWidth, e]
  simp
  omega

end Sys2Proof.Machine
end

