-- ==== Sys2Proof/Laws/Decode.lean ====
section
/-! SUPPORT. The fields of a word as arithmetic, the masks of the opcode table as fields, and the fields of an encoded
layout. -/

namespace Sys2Proof

theorem bits_eq (w : Word) (hi lo : Nat) : bits w hi lo = w.toNat / 2 ^ lo % 2 ^ (hi + 1 - lo) := rfl

theorem fieldOp_lt (w : Word) : fieldOp w < 16 := Nat.mod_lt _ (by decide)

/-- A word is its four nibbles. -/
theorem toNat_eq_nibbles (w : Word) :
    w.toNat = fieldOp w * 4096 + (fieldX w).val * 256 + (fieldY w).val * 16 + (fieldN w).val := by
  simp only [fieldOp, fieldX, fieldY, fieldN, bits, Fin.ofNat]
  have := w.isLt
  omega

theorem toNat_fieldNN (w : Word) : (fieldNN w).toNat = (fieldY w).val * 16 + (fieldN w).val := by
  simp only [fieldNN, fieldY, fieldN, bits, Fin.ofNat, BitVec.toNat_ofNat]
  omega

theorem toNat_fieldNNN (w : Word) :
    (fieldNNN w).toNat = (fieldX w).val * 256 + (fieldY w).val * 16 + (fieldN w).val := by
  simp only [fieldNNN, fieldX, fieldY, fieldN, bits, Fin.ofNat, BitVec.toNat_ofNat]
  omega

/-- The secondary byte key is NN. -/
theorem bits_7_0 (w : Word) : bits w 7 0 = (fieldNN w).toNat := by
  simp [fieldNN, bits]

theorem bits_3_0 (w : Word) : bits w 3 0 = (fieldN w).val := by
  simp [fieldN, bits, Fin.ofNat]

/-! The masks of the opcode table. -/

theorem and_opcode_mask (w : Word) : (w &&& 0xF000#16).toNat = fieldOp w * 4096 := by
  have e : w &&& 0xF000#16 = (w >>> 12) <<< 12 := by
    ext i hi
    interval_cases i <;> simp
  have := w.isLt
  rw [e]
  simp only [fieldOp, bits, BitVec.toNat_shiftLeft, BitVec.toNat_ushiftRight, Nat.shiftLeft_eq,
    Nat.shiftRight_eq_div_pow]
  omega

/-- A mask that keeps the top nibble and `k` low bits. -/
theorem toNat_or_low (w : Word) (k : Nat) (hk : k ≤ 12) :
    (((w >>> 12) <<< 12) ||| ((w <<< (16 - k)) >>> (16 - k))).toNat = fieldOp w * 4096 + w.toNat % 2 ^ k := by
  have hw := w.isLt
  have h1 : ((w <<< (16 - k)) >>> (16 - k)).toNat = w.toNat % 2 ^ k := by
    simp only [BitVec.toNat_shiftLeft, BitVec.toNat_ushiftRight, Nat.shiftLeft_eq, Nat.shiftRight_eq_div_pow]
    rw [show (2 : Nat) ^ 16 = 2 ^ k * 2 ^ (16 - k) by rw [← Nat.pow_add]; congr 1; omega, Nat.mul_mod_mul_right,
      Nat.mul_div_cancel _ (Nat.two_pow_pos _)]
  have h2 : ((w >>> 12) <<< 12).toNat = (w.toNat / 4096) <<< 12 := by
    simp only [BitVec.toNat_shiftLeft, BitVec.toNat_ushiftRight, Nat.shiftLeft_eq, Nat.shiftRight_eq_div_pow]
    exact Nat.mod_eq_of_lt (by omega)
  have h3 : w.toNat % 2 ^ k < 2 ^ 12 :=
    Nat.lt_of_lt_of_le (Nat.mod_lt _ (Nat.two_pow_pos k)) (Nat.pow_le_pow_right (by decide) hk)
  rw [BitVec.toNat_or, h1, h2, ← Nat.shiftLeft_add_eq_or_of_lt h3 (w.toNat / 4096), Nat.shiftLeft_eq]
  simp only [fieldOp, bits]
  omega

theorem and_nibble_mask (w : Word) : (w &&& 0xF00F#16).toNat = fieldOp w * 4096 + (fieldN w).val := by
  have e : w &&& 0xF00F#16 = ((w >>> 12) <<< 12) ||| ((w <<< (16 - 4)) >>> (16 - 4)) := by
    ext i hi
    interval_cases i <;> simp
  rw [e, toNat_or_low w 4 (by decide)]
  simp [fieldN, bits, Fin.ofNat]

theorem and_byte_mask (w : Word) : (w &&& 0xF0FF#16).toNat = fieldOp w * 4096 + (fieldNN w).toNat := by
  have e : w &&& 0xF0FF#16 = ((w >>> 12) <<< 12) ||| ((w <<< (16 - 8)) >>> (16 - 8)) := by
    ext i hi
    interval_cases i <;> simp
  rw [e, toNat_or_low w 8 (by decide)]
  simp [fieldNN, bits]

theorem and_full_mask (w : Word) : w &&& 0xFFFF#16 = w := by
  ext i hi
  interval_cases i <;> simp

/-! The layouts of R72 and their fields. -/

theorem toNat_layoutNNN {op : Nat} (h : op < 16) (nnn : BitVec 12) :
    (layoutNNN op nnn).toNat = op * 4096 + nnn.toNat := by
  simp only [layoutNNN, BitVec.toNat_ofNat]
  have := nnn.isLt
  omega

theorem toNat_layoutXNN {op : Nat} (h : op < 16) (x : Reg) (nn : Byte) :
    (layoutXNN op x nn).toNat = op * 4096 + x.val * 256 + nn.toNat := by
  simp only [layoutXNN, BitVec.toNat_ofNat]
  have := nn.isLt
  omega

theorem toNat_layoutXYN {op : Nat} (h : op < 16) (x y n : Fin 16) :
    (layoutXYN op x y n).toNat = op * 4096 + x.val * 256 + y.val * 16 + n.val := by
  simp only [layoutXYN, BitVec.toNat_ofNat]
  omega

theorem fieldOp_layoutNNN {op : Nat} (h : op < 16) (nnn : BitVec 12) : fieldOp (layoutNNN op nnn) = op := by
  have := nnn.isLt
  simp only [fieldOp, bits, toNat_layoutNNN h]
  omega

theorem fieldNNN_layoutNNN {op : Nat} (h : op < 16) (nnn : BitVec 12) : fieldNNN (layoutNNN op nnn) = nnn := by
  apply BitVec.eq_of_toNat_eq
  have := nnn.isLt
  simp only [fieldNNN, bits, toNat_layoutNNN h, BitVec.toNat_ofNat]
  omega

theorem fieldOp_layoutXNN {op : Nat} (h : op < 16) (x : Reg) (nn : Byte) : fieldOp (layoutXNN op x nn) = op := by
  have := nn.isLt
  simp only [fieldOp, bits, toNat_layoutXNN h]
  omega

theorem fieldX_layoutXNN {op : Nat} (h : op < 16) (x : Reg) (nn : Byte) : fieldX (layoutXNN op x nn) = x := by
  have := nn.isLt
  apply Fin.ext
  simp only [fieldX, bits, toNat_layoutXNN h, Fin.ofNat]
  omega

theorem fieldNN_layoutXNN {op : Nat} (h : op < 16) (x : Reg) (nn : Byte) : fieldNN (layoutXNN op x nn) = nn := by
  apply BitVec.eq_of_toNat_eq
  have := nn.isLt
  simp only [fieldNN, bits, toNat_layoutXNN h, BitVec.toNat_ofNat]
  omega

theorem fieldOp_layoutXYN {op : Nat} (h : op < 16) (x y n : Fin 16) : fieldOp (layoutXYN op x y n) = op := by
  simp only [fieldOp, bits, toNat_layoutXYN h]
  omega

theorem fieldX_layoutXYN {op : Nat} (h : op < 16) (x y n : Fin 16) : fieldX (layoutXYN op x y n) = x := by
  apply Fin.ext
  simp only [fieldX, bits, toNat_layoutXYN h, Fin.ofNat]
  omega

theorem fieldY_layoutXYN {op : Nat} (h : op < 16) (x y n : Fin 16) : fieldY (layoutXYN op x y n) = y := by
  apply Fin.ext
  simp only [fieldY, bits, toNat_layoutXYN h, Fin.ofNat]
  omega

theorem fieldN_layoutXYN {op : Nat} (h : op < 16) (x y n : Fin 16) : fieldN (layoutXYN op x y n) = n := by
  apply Fin.ext
  simp only [fieldN, bits, toNat_layoutXYN h, Fin.ofNat]
  omega

/-- The two bytes of a word make the word again. -/
theorem wordOfBytes_bytesOfWord (w : Word) :
    wordOfBytes (BitVec.ofNat 8 (bits w 15 8)) (BitVec.ofNat 8 (bits w 7 0)) = w := by
  apply BitVec.eq_of_toNat_eq
  have := w.isLt
  simp only [wordOfBytes, bits, BitVec.toNat_ofNat]
  omega

theorem toNat_wordOfBytes (hi lo : Byte) : (wordOfBytes hi lo).toNat = hi.toNat * 256 + lo.toNat := by
  simp only [wordOfBytes, BitVec.toNat_ofNat]
  omega

end Sys2Proof
end

