-- ==== Sys2Proof/Laws/Fields.lean ====
section
/-! SUPPORT. The fields that the claims cut out of a word's bits are the decoder's fields, and the masks of the opcode
table as equations on fields. -/

namespace Sys2Proof.Safety

theorem xOf_eq (w : Word) : xOf w = fieldX w := by
  apply Fin.ext
  simp [xOf, fieldX, bits, Fin.ofNat, Nat.shiftRight_eq_div_pow]

theorem yOf_eq (w : Word) : yOf w = fieldY w := by
  apply Fin.ext
  simp [yOf, fieldY, bits, Fin.ofNat, Nat.shiftRight_eq_div_pow]

theorem nOf_eq (w : Word) : nOf w = fieldN w := by
  apply Fin.ext
  simp [nOf, fieldN, bits, Fin.ofNat]

theorem nnOf_eq (w : Word) : nnOf w = fieldNN w := by
  apply BitVec.eq_of_toNat_eq
  simp [nnOf, fieldNN, bits]

theorem nnnOf_eq (w : Word) : nnnOf w = fieldNNN w := by
  apply BitVec.eq_of_toNat_eq
  simp [nnnOf, fieldNNN, bits]

theorem op_eq (w : Word) : (w.extractLsb' 12 4).toNat = fieldOp w := by
  simp [fieldOp, bits, Nat.shiftRight_eq_div_pow]

/-! A word against a mask and match of the opcode table. -/

theorem and_op_iff (w : Word) (op : Nat) (h : op < 16) :
    w &&& 0xF000#16 = BitVec.ofNat 16 (op * 4096) ↔ fieldOp w = op := by
  have := fieldOp_lt w
  rw [← BitVec.toNat_inj, and_opcode_mask, BitVec.toNat_ofNat]
  omega

theorem and_nib_iff (w : Word) (op n : Nat) (h : op < 16) (hn : n < 16) :
    w &&& 0xF00F#16 = BitVec.ofNat 16 (op * 4096 + n) ↔ fieldOp w = op ∧ (fieldN w).val = n := by
  have := fieldOp_lt w
  rw [← BitVec.toNat_inj, and_nibble_mask, BitVec.toNat_ofNat]
  omega

theorem and_byte_iff (w : Word) (op n : Nat) (h : op < 16) (hn : n < 256) :
    w &&& 0xF0FF#16 = BitVec.ofNat 16 (op * 4096 + n) ↔ fieldOp w = op ∧ (fieldNN w).toNat = n := by
  have := fieldOp_lt w
  have := (fieldNN w).isLt
  rw [← BitVec.toNat_inj, and_byte_mask, BitVec.toNat_ofNat]
  omega

end Sys2Proof.Safety
end

