-- ==== Sys2Proof/Laws/Memory.lean ====
section
/-! SUPPORT. Memory: read after write, the canonical form and what keeps it, ranges. -/

namespace Sys2Proof.Machine.Memory

/-- Below its lower bound a canonical memory lists nothing. -/
theorem read_of_lt {m : Memory} {lo a : Nat} (h : wfFrom lo m = true) (ha : a < lo) : m.read a = unlisted a := by
  induction m generalizing lo with
  | nil => rfl
  | cons e rest ih =>
    simp only [wfFrom, Bool.and_eq_true, decide_eq_true_eq, bne_iff_ne] at h
    simp only [read]
    rw [if_neg (by omega), ih h.2 (by omega)]

/-- A lower bound may be lowered. -/
theorem wfFrom_mono {m : Memory} {lo lo' : Nat} (h : wfFrom lo m = true) (hl : lo' ≤ lo) : wfFrom lo' m = true := by
  cases m with
  | nil => rfl
  | cons e rest =>
    simp only [wfFrom, Bool.and_eq_true, decide_eq_true_eq, bne_iff_ne] at h ⊢
    exact ⟨⟨⟨by omega, h.1.1.2⟩, h.1.2⟩, h.2⟩

/-- Read after write, from any lower bound. -/
theorem read_write_from {m : Memory} {lo : Nat} (h : wfFrom lo m = true) (a c : Nat) (b : Byte) :
    (m.write a b).read c = if c = a then b else m.read c := by
  induction m generalizing lo with
  | nil =>
    simp only [write]
    split
    · rename_i hb; split <;> simp_all [read]
    · simp only [read, eq_comm (a := a)]
  | cons e rest ih =>
    obtain ⟨k, x⟩ := e
    simp only [wfFrom, Bool.and_eq_true, decide_eq_true_eq, bne_iff_ne] at h
    have hrest := ih h.2
    simp only [write]
    by_cases h1 : a < k
    · rw [if_pos h1]
      split
      · rename_i hb
        by_cases hc : c = a
        · subst hc
          have : read rest c = unlisted c := read_of_lt h.2 (by omega)
          simp [read, show k ≠ c by omega, this, hb]
        · simp [hc]
      · by_cases hc : c = a
        · simp [read, hc]
        · simp [read, hc, Ne.symm hc]
    · rw [if_neg h1]
      by_cases h2 : a = k
      · subst h2
        rw [if_pos rfl]
        split
        · rename_i hb
          by_cases hc : c = a
          · subst hc
            simp [read_of_lt h.2 (show c < c + 1 by omega), hb]
          · simp [read, hc, Ne.symm hc]
        · by_cases hc : c = a
          · simp [read, hc]
          · simp [read, hc, Ne.symm hc]
      · rw [if_neg h2]
        simp only [read, hrest]
        by_cases hc : k = c
        · simp [hc, show c ≠ a by omega]
        · simp [hc]

/-- A write keeps the canonical form. -/
theorem wfFrom_write {m : Memory} {lo : Nat} (h : wfFrom lo m = true) {a : Nat} (hlo : lo ≤ a) (ha : a < memSize)
    (b : Byte) : wfFrom lo (m.write a b) = true := by
  induction m generalizing lo with
  | nil =>
    simp only [write]
    split
    · rfl
    · rename_i hb; simp [wfFrom, hlo, ha, hb]
  | cons e rest ih =>
    obtain ⟨k, x⟩ := e
    simp only [wfFrom, Bool.and_eq_true, decide_eq_true_eq, bne_iff_ne] at h
    obtain ⟨⟨⟨h1, h2⟩, h3⟩, h4⟩ := h
    simp only [write]
    by_cases hk : a < k
    · rw [if_pos hk]
      split
      · simp [wfFrom, h1, h2, h3, h4]
      · rename_i hb; simp [wfFrom, hlo, ha, hb, h2, h3, h4, show a + 1 ≤ k by omega]
    · rw [if_neg hk]
      by_cases he : a = k
      · subst he
        rw [if_pos rfl]
        split
        · exact wfFrom_mono h4 (by omega)
        · rename_i hb; simp [wfFrom, hlo, ha, hb, h4]
      · rw [if_neg he]
        simp [wfFrom, h1, h2, h3, ih h4 (show k + 1 ≤ a by omega)]

theorem wf_write {m : Memory} (h : m.wf = true) {a : Nat} (ha : a < memSize) (b : Byte) : (m.write a b).wf = true :=
  wfFrom_write h (Nat.zero_le _) ha b

/-- Storing a range inside the address space keeps the canonical form. -/
theorem wf_writeRange {m : Memory} (h : m.wf = true) {a : Nat} {bs : List Byte} (ha : a + bs.length ≤ memSize) :
    (m.writeRange a bs).wf = true := by
  induction bs generalizing m a with
  | nil => exact h
  | cons b rest ih =>
    simp only [List.length_cons] at ha
    exact ih (wf_write h (by omega) b) (by omega)

/-- Reading after storing a range inside the address space. -/
theorem read_writeRange {m : Memory} (h : m.wf = true) {a : Nat} {bs : List Byte} (ha : a + bs.length ≤ memSize)
    (c : Nat) : (m.writeRange a bs).read c = if a ≤ c ∧ c < a + bs.length then bs.getD (c - a) 0 else m.read c := by
  induction bs generalizing m a with
  | nil => simp [writeRange, Nat.not_lt.2]
  | cons b rest ih =>
    simp only [List.length_cons] at ha ⊢
    rw [writeRange, ih (wf_write h (by omega) b) (by omega), read_write_from h]
    rcases Nat.lt_trichotomy c a with hc | hc | hc
    · simp [Nat.not_le.2 hc, Nat.ne_of_lt hc, show ¬ a + 1 ≤ c by omega]
    · subst hc; simp
    · have e : c - a = (c - (a + 1)) + 1 := by omega
      simp [e, show a + 1 ≤ c by omega, show a ≤ c by omega, Nat.ne_of_gt hc,
        show c < a + 1 + rest.length ↔ c < a + (rest.length + 1) by omega]

@[simp] theorem length_readRange (m : Memory) (a n : Nat) : (m.readRange a n).length = n := by
  induction n generalizing a with
  | zero => rfl
  | succ n ih => simp [readRange, ih]

/-- The bytes of a range are the bytes read one by one. -/
theorem readRange_eq_map (m : Memory) (a n : Nat) : m.readRange a n = (List.range n).map fun k => m.read (a + k) := by
  induction n generalizing a with
  | zero => rfl
  | succ n ih =>
    rw [readRange, ih, List.range_succ_eq_map]
    simp [Nat.add_assoc, Nat.add_comm 1]

end Sys2Proof.Machine.Memory
end

