-- ==== Sys2Proof/Laws/Operations.lean ====
section
/-! SUPPORT. What each shared operation can do: push, pop, the bounds check, the fetch, the skip. -/

namespace Sys2Proof.Machine

variable (s : State)

/-- Push fails exactly on a full stack; otherwise it writes the next free entry. -/
theorem State.push_cases (a : Word) :
    (stackCap ≤ s.sp ∧ s.push a = none) ∨
    (s.sp < stackCap ∧ s.push a = some { s with stack := s.stack.setIfInBounds s.sp a, sp := s.sp + 1 }) := by
  unfold State.push
  by_cases h : stackCap ≤ s.sp
  · exact .inl ⟨h, if_pos h⟩
  · exact .inr ⟨by omega, if_neg h⟩

/-- Pop fails exactly on an empty stack; otherwise it takes the entry below the depth. -/
theorem State.pop_cases :
    (s.sp = 0 ∧ s.pop = none) ∨
    (0 < s.sp ∧ s.pop = some (s.stack[s.sp - 1]?.getD 0, { s with sp := s.sp - 1 })) := by
  unfold State.pop
  by_cases h : s.sp = 0
  · exact .inl ⟨h, if_pos h⟩
  · exact .inr ⟨by omega, if_neg h⟩

/-- A pop gives back what a push has just pushed. -/
theorem State.pop_push {a : Word} {t : State} (h : s.push a = some t) :
    t.pop = some (a, { t with sp := s.sp }) := by
  obtain ⟨_, e⟩ | ⟨hs, e⟩ := s.push_cases a
  · simp [e] at h
  · obtain rfl : _ = t := Option.some.inj (e.symm.trans h)
    simp [State.pop, hs]

/-- A raised fault: PC goes back to the instruction's address and `status` holds the fault. -/
theorem State.raise_eq (f : Fault) : s.raise f = .next { s with pc := s.pc - 2, status := .faulted f } := rfl

/-- The bounds check raises the fault of the first out-of-range address or goes on. -/
theorem accessFromI_cases (i : Instr) (count : Nat) (go : Result) :
    (0 < count ∧ 4096 < s.i.toNat + count ∧ accessFromI i count s go =
      s.raise (.memoryBoundsError (max s.i.toNat 4096) (s.pc - 2) (some (encodeWord i)))) ∨
    ((count = 0 ∨ s.i.toNat + count ≤ 4096) ∧ accessFromI i count s go = go) := by
  unfold accessFromI
  by_cases h : count ≠ 0 ∧ 4095 < s.i.toNat + (count - 1)
  · exact .inl ⟨by omega, by omega, if_pos h⟩
  · exact .inr ⟨by omega, if_neg h⟩

/-- The fetch fails at PC above 4094, or reads the word and advances PC. -/
theorem fetch_cases :
    (4095 < s.pc.toNat + 1 ∧ fetch s = .error
      (.memoryBoundsError (if 4095 < s.pc.toNat then s.pc.toNat else s.pc.toNat + 1) s.pc none)) ∨
    (s.pc.toNat + 1 ≤ 4095 ∧ fetch s =
      .ok (wordOfBytes (s.readByte s.pc.toNat) (s.readByte (s.pc.toNat + 1)), s.setPc (s.pc + 2))) := by
  unfold fetch
  by_cases h : 4095 < s.pc.toNat + 1
  · exact .inl ⟨h, if_pos h⟩
  · exact .inr ⟨by omega, if_neg h⟩

/-- A skip moves PC by 2 or not at all, and nothing else. -/
theorem State.skipIf_eq (c : Bool) : s.skipIf c = { s with pc := if c then s.pc + 2 else s.pc } := by
  cases c <;> rfl

/-- CALL and SYS report an overflow on a full stack, and push and jump otherwise. -/
theorem callTo_cases (target : Word) :
    (stackCap ≤ s.sp ∧ callTo target s = .next (s.report (.callStackOverflow (s.pc - 2)))) ∨
    (s.sp < stackCap ∧ callTo target s =
      .next { s with stack := s.stack.setIfInBounds s.sp s.pc, sp := s.sp + 1, pc := target }) := by
  obtain ⟨h, e⟩ | ⟨h, e⟩ := s.push_cases s.pc
  · exact .inl ⟨h, by simp only [callTo, e]; rfl⟩
  · exact .inr ⟨h, by simp only [callTo, e]; rfl⟩

/-- RET reports an underflow on an empty stack, and pops into PC otherwise. -/
theorem execRet_cases :
    (s.sp = 0 ∧ execRet s = .next (s.report (.callStackUnderflow (s.pc - 2)))) ∨
    (0 < s.sp ∧ execRet s = .next { s with sp := s.sp - 1, pc := s.stack[s.sp - 1]?.getD 0 }) := by
  obtain ⟨h, e⟩ | ⟨h, e⟩ := s.pop_cases
  · exact .inl ⟨h, by simp only [execRet, e]; rfl⟩
  · exact .inr ⟨h, by simp only [execRet, e]; rfl⟩

/-- Address immediates keep their value. -/
@[simp] theorem toNat_addressOf (nnn : BitVec 12) : (addressOf nnn).toNat = nnn.toNat := by
  simp only [addressOf, BitVec.toNat_setWidth]
  have := nnn.isLt
  omega

end Sys2Proof.Machine
end

