-- ==== Sys2Proof/Laws/PerInstr.lean ====
section
/-! SUPPORT. One lemma per instruction: the word it encodes to matches the mask and pattern of its row of
spec/opcode_table.json (30_encoding.md R77). -/

namespace Sys2Proof.Laws.TableRow

open Sys2Proof

/-- The mask and match of an instruction's row; UNSUPPORTED matches anything. -/
def row : Instr → Word × Word
  | .cls => (0xFFFF, 0x00E0)
  | .ret => (0xFFFF, 0x00EE)
  | .sys _ => (0xF000, 0x0000)
  | .jp _ => (0xF000, 0x1000)
  | .call _ => (0xF000, 0x2000)
  | .seImm _ _ => (0xF000, 0x3000)
  | .sneImm _ _ => (0xF000, 0x4000)
  | .seReg _ _ => (0xF00F, 0x5000)
  | .ldImm _ _ => (0xF000, 0x6000)
  | .addImm _ _ => (0xF000, 0x7000)
  | .ldReg _ _ => (0xF00F, 0x8000)
  | .orReg _ _ => (0xF00F, 0x8001)
  | .andReg _ _ => (0xF00F, 0x8002)
  | .xorReg _ _ => (0xF00F, 0x8003)
  | .addReg _ _ => (0xF00F, 0x8004)
  | .sub _ _ => (0xF00F, 0x8005)
  | .shr _ _ => (0xF00F, 0x8006)
  | .subn _ _ => (0xF00F, 0x8007)
  | .shl _ _ => (0xF00F, 0x800E)
  | .sneReg _ _ => (0xF00F, 0x9000)
  | .ldI _ => (0xF000, 0xA000)
  | .jpo _ => (0xF000, 0xB000)
  | .rnd _ _ => (0xF000, 0xC000)
  | .drw _ _ _ => (0xF000, 0xD000)
  | .skp _ => (0xF0FF, 0xE09E)
  | .sknp _ => (0xF0FF, 0xE0A1)
  | .ldVxDt _ => (0xF0FF, 0xF007)
  | .ldVxK _ => (0xF0FF, 0xF00A)
  | .ldDt _ => (0xF0FF, 0xF015)
  | .ldSt _ => (0xF0FF, 0xF018)
  | .addI _ => (0xF0FF, 0xF01E)
  | .ldF _ => (0xF0FF, 0xF029)
  | .ldB _ => (0xF0FF, 0xF033)
  | .stRegs _ => (0xF0FF, 0xF055)
  | .ldRegs _ => (0xF0FF, 0xF065)
  | .unsupported _ => (0x0000, 0x0000)

/-- The encoded word matches its row. -/
def Statement (i : Instr) : Prop := encodeWord i &&& (row i).1 = (row i).2

/-! Each layout under its mask. -/

theorem layoutNNN_row {op : Nat} (h : op < 16) (nnn : BitVec 12) :
    layoutNNN op nnn &&& 0xF000#16 = BitVec.ofNat 16 (op * 4096) := by
  apply BitVec.eq_of_toNat_eq
  rw [and_opcode_mask, fieldOp_layoutNNN h, BitVec.toNat_ofNat]
  omega

theorem layoutXNN_row {op : Nat} (h : op < 16) (x : Reg) (nn : Byte) :
    layoutXNN op x nn &&& 0xF000#16 = BitVec.ofNat 16 (op * 4096) := by
  apply BitVec.eq_of_toNat_eq
  rw [and_opcode_mask, fieldOp_layoutXNN h, BitVec.toNat_ofNat]
  omega

theorem layoutX_row {op : Nat} (h : op < 16) (x : Reg) (nn : Byte) :
    layoutXNN op x nn &&& 0xF0FF#16 = BitVec.ofNat 16 (op * 4096 + nn.toNat) := by
  apply BitVec.eq_of_toNat_eq
  have := nn.isLt
  rw [and_byte_mask, fieldOp_layoutXNN h, fieldNN_layoutXNN h, BitVec.toNat_ofNat]
  omega

theorem layoutXY_row {op : Nat} (h : op < 16) (x y n : Fin 16) :
    layoutXYN op x y n &&& 0xF00F#16 = BitVec.ofNat 16 (op * 4096 + n.val) := by
  apply BitVec.eq_of_toNat_eq
  rw [and_nibble_mask, fieldOp_layoutXYN h, fieldN_layoutXYN h, BitVec.toNat_ofNat]
  omega

theorem layoutXYN_row {op : Nat} (h : op < 16) (x y n : Fin 16) :
    layoutXYN op x y n &&& 0xF000#16 = BitVec.ofNat 16 (op * 4096) := by
  apply BitVec.eq_of_toNat_eq
  rw [and_opcode_mask, fieldOp_layoutXYN h, BitVec.toNat_ofNat]
  omega

/-! One lemma per constructor. -/

theorem cls : Statement .cls := and_full_mask _
theorem ret : Statement .ret := and_full_mask _
theorem sys (nnn : BitVec 12) : Statement (.sys nnn) := layoutNNN_row (by decide) nnn
theorem jp (nnn : BitVec 12) : Statement (.jp nnn) := layoutNNN_row (by decide) nnn
theorem call (nnn : BitVec 12) : Statement (.call nnn) := layoutNNN_row (by decide) nnn
theorem seImm (x : Reg) (nn : Byte) : Statement (.seImm x nn) := layoutXNN_row (by decide) x nn
theorem sneImm (x : Reg) (nn : Byte) : Statement (.sneImm x nn) := layoutXNN_row (by decide) x nn
theorem seReg (x y : Reg) : Statement (.seReg x y) := layoutXY_row (by decide) x y 0x0
theorem ldImm (x : Reg) (nn : Byte) : Statement (.ldImm x nn) := layoutXNN_row (by decide) x nn
theorem addImm (x : Reg) (nn : Byte) : Statement (.addImm x nn) := layoutXNN_row (by decide) x nn
theorem ldReg (x y : Reg) : Statement (.ldReg x y) := layoutXY_row (by decide) x y 0x0
theorem orReg (x y : Reg) : Statement (.orReg x y) := layoutXY_row (by decide) x y 0x1
theorem andReg (x y : Reg) : Statement (.andReg x y) := layoutXY_row (by decide) x y 0x2
theorem xorReg (x y : Reg) : Statement (.xorReg x y) := layoutXY_row (by decide) x y 0x3
theorem addReg (x y : Reg) : Statement (.addReg x y) := layoutXY_row (by decide) x y 0x4
theorem sub (x y : Reg) : Statement (.sub x y) := layoutXY_row (by decide) x y 0x5
theorem shr (x y : Reg) : Statement (.shr x y) := layoutXY_row (by decide) x y 0x6
theorem subn (x y : Reg) : Statement (.subn x y) := layoutXY_row (by decide) x y 0x7
theorem shl (x y : Reg) : Statement (.shl x y) := layoutXY_row (by decide) x y 0xE
theorem sneReg (x y : Reg) : Statement (.sneReg x y) := layoutXY_row (by decide) x y 0x0
theorem ldI (nnn : BitVec 12) : Statement (.ldI nnn) := layoutNNN_row (by decide) nnn
theorem jpo (nnn : BitVec 12) : Statement (.jpo nnn) := layoutNNN_row (by decide) nnn
theorem rnd (x : Reg) (nn : Byte) : Statement (.rnd x nn) := layoutXNN_row (by decide) x nn
theorem drw (x y : Reg) (n : Fin 16) : Statement (.drw x y n) := layoutXYN_row (by decide) x y n
theorem skp (x : Reg) : Statement (.skp x) := layoutX_row (by decide) x 0x9E
theorem sknp (x : Reg) : Statement (.sknp x) := layoutX_row (by decide) x 0xA1
theorem ldVxDt (x : Reg) : Statement (.ldVxDt x) := layoutX_row (by decide) x 0x07
theorem ldVxK (x : Reg) : Statement (.ldVxK x) := layoutX_row (by decide) x 0x0A
theorem ldDt (x : Reg) : Statement (.ldDt x) := layoutX_row (by decide) x 0x15
theorem ldSt (x : Reg) : Statement (.ldSt x) := layoutX_row (by decide) x 0x18
theorem addI (x : Reg) : Statement (.addI x) := layoutX_row (by decide) x 0x1E
theorem ldF (x : Reg) : Statement (.ldF x) := layoutX_row (by decide) x 0x29
theorem ldB (x : Reg) : Statement (.ldB x) := layoutX_row (by decide) x 0x33
theorem stRegs (x : Reg) : Statement (.stRegs x) := layoutX_row (by decide) x 0x55
theorem ldRegs (x : Reg) : Statement (.ldRegs x) := layoutX_row (by decide) x 0x65
theorem unsupported (w : Word) : Statement (.unsupported w) := BitVec.and_zero

end Sys2Proof.Laws.TableRow
end

