-- ==== Sys2Proof/Laws/Scheduler.lean ====
section
/-! SUPPORT. What each part of a pass can do. -/

namespace Sys2Proof.Machine

variable (s : State)

/-- An edge changes the keypad and the key wait only. -/
theorem State.deliverEdge_eq (e : KeyEdge) :
    s.deliverEdge e = { s with keys := (s.deliverEdge e).keys, kw := (s.deliverEdge e).kw } := by
  cases e <;> rfl

/-- Edges change the keypad and the key wait only. -/
theorem State.deliverEdges_eq (edges : List KeyEdge) :
    s.deliverEdges edges = { s with keys := (s.deliverEdges edges).keys, kw := (s.deliverEdges edges).kw } := by
  induction edges generalizing s with
  | nil => rfl
  | cons e rest ih =>
    have h : s.deliverEdges (e :: rest) = (s.deliverEdge e).deliverEdges rest := rfl
    rw [h, ih, s.deliverEdge_eq e]

/-- No edge starts or ends a wait: KW is Idle after it exactly if it was before. -/
theorem State.deliverEdge_kw_idle (e : KeyEdge) : (s.deliverEdge e).kw = .idle ↔ s.kw = .idle := by
  cases e with
  | press k => cases h : s.kw <;> simp [State.deliverEdge, KeyWait.onPress, h]
  | release k =>
    cases h : s.kw with
    | waitingForRelease j r => cases r <;> simp [State.deliverEdge, KeyWait.onRelease, h]
    | _ => simp [State.deliverEdge, KeyWait.onRelease, h]

theorem State.deliverEdges_kw_idle (edges : List KeyEdge) : (s.deliverEdges edges).kw = .idle ↔ s.kw = .idle := by
  induction edges generalizing s with
  | nil => rfl
  | cons e rest ih => exact (ih _).trans (s.deliverEdge_kw_idle e)

theorem toNat_countDown (t : Byte) : (countDown t).toNat = t.toNat - 1 := by
  unfold countDown
  split
  · simp_all
  · rename_i h
    have h0 : t.toNat ≠ 0 := fun e => h (BitVec.eq_of_toNat_eq (by simpa using e))
    rw [BitVec.toNat_sub_of_le (show 1 ≤ t.toNat from Nat.pos_of_ne_zero h0)]
    rfl

/-- The timer cadence ticks and stamps when due, and does nothing otherwise. -/
theorem State.timerCadence_cases (now : Nat) :
    (s.cfg.timerPeriod ≤ now - s.lastTimer ∧ s.timerCadence now =
      { s with lastTimer := now, dt := countDown s.dt, st := countDown s.st, tone := countDown s.st != 0 }) ∨
    (¬ s.cfg.timerPeriod ≤ now - s.lastTimer ∧ s.timerCadence now = s) := by
  unfold State.timerCadence
  by_cases h : s.cfg.timerPeriod ≤ now - s.lastTimer
  · exact .inl ⟨h, if_pos h⟩
  · exact .inr ⟨h, if_neg h⟩

/-- The frame cadence emits the display and stamps when due, and does nothing otherwise. -/
theorem State.frameCadence_cases (now : Nat) :
    (s.cfg.framePeriod ≤ now - s.lastFrame ∧ s.frameCadence now =
      { s with lastFrame := now, frames := s.frames ++ [s.display] }) ∨
    (¬ s.cfg.framePeriod ≤ now - s.lastFrame ∧ s.frameCadence now = s) := by
  unfold State.frameCadence
  by_cases h : s.cfg.framePeriod ≤ now - s.lastFrame
  · exact .inl ⟨h, if_pos h⟩
  · exact .inr ⟨h, if_neg h⟩

/-- A pass before its CPU cadence, field by field: edges go to the keypad and the key wait, a due timer cadence counts
down, sets the tone and stamps, a due frame cadence emits the display and stamps; nothing else changes. -/
theorem State.beforeCpu_eq (p : PassInput) :
    s.beforeCpu p = { s with
      keys := (s.deliverEdges p.edges).keys
      kw := (s.deliverEdges p.edges).kw
      dt := if s.cfg.timerPeriod ≤ s.clock - s.lastTimer then countDown s.dt else s.dt
      st := if s.cfg.timerPeriod ≤ s.clock - s.lastTimer then countDown s.st else s.st
      tone := if s.cfg.timerPeriod ≤ s.clock - s.lastTimer then countDown s.st != 0 else s.tone
      lastTimer := if s.cfg.timerPeriod ≤ s.clock - s.lastTimer then s.clock else s.lastTimer
      lastFrame := if s.cfg.framePeriod ≤ s.clock - s.lastFrame then s.clock else s.lastFrame
      frames := if s.cfg.framePeriod ≤ s.clock - s.lastFrame then s.frames ++ [s.display] else s.frames } := by
  unfold State.beforeCpu
  rw [s.deliverEdges_eq p.edges]
  by_cases ht : s.cfg.timerPeriod ≤ s.clock - s.lastTimer <;>
  by_cases hf : s.cfg.framePeriod ≤ s.clock - s.lastFrame <;>
  simp [State.timerCadence, State.timerTick, State.frameCadence, ht, hf]

/-- A cycle takes the fault of its fetch, or answers what the fetched instruction answers. -/
theorem cycle_cases :
    (∃ f, fetch s = .error f ∧ cycle s = .next { s with status := .faulted f }) ∨
    (∃ w t, fetch s = .ok (w, t) ∧ cycle s = exec (decodeWord w) t) := by
  unfold cycle
  cases hf : fetch s with
  | error f => exact .inl ⟨f, rfl, rfl⟩
  | ok p => exact .inr ⟨p.1, p.2, rfl, rfl⟩

/-- The CPU cadence runs a cycle, stamped or not, or nothing. -/
theorem cpuCadence_cases (now : Nat) :
    (s.throttlePeriod = none ∧ cpuCadence now s = cycle s) ∨
    (∃ period, s.throttlePeriod = some period ∧
      ((period ≤ now - s.lastCpu ∧ cpuCadence now s = cycle { s with lastCpu := now }) ∨
       (¬ period ≤ now - s.lastCpu ∧ cpuCadence now s = .next s))) := by
  unfold cpuCadence
  cases h : s.throttlePeriod with
  | none => exact .inl ⟨rfl, rfl⟩
  | some period =>
    refine .inr ⟨period, rfl, ?_⟩
    by_cases hp : period ≤ now - s.lastCpu
    · exact .inl ⟨hp, if_pos hp⟩
    · exact .inr ⟨hp, if_neg hp⟩

/-- Every step is a pass or a reset: the pass of the next input, or the quiet pass when no input is left. -/
theorem step_cases :
    (∃ p rest, (s.inputs = .pass p :: rest ∨ (s.inputs = [] ∧ p = quietPass ∧ rest = [])) ∧
      ((s.status = .running ∧ step s =
          runningPass p { s with inputs := rest, clock := s.clock + p.advance }) ∨
       (s.status ≠ .running ∧ step s = .next { s with inputs := rest, clock := s.clock + p.advance }))) ∨
    (∃ r rest, s.inputs = .reset r :: rest ∧ step s = .next (State.resetSession { s with inputs := rest } r)) := by
  unfold step runNextInput
  have key : ∀ (p : PassInput) (u : State), (u.status = .running ∧
      schedulerPass p u = runningPass p { u with clock := u.clock + p.advance }) ∨
      (u.status ≠ .running ∧ schedulerPass p u = .next { u with clock := u.clock + p.advance }) := by
    intro p u
    unfold schedulerPass
    cases h : u.status <;> simp
  rcases hi : s.inputs with _ | ⟨inp, rest⟩
  · refine .inl ⟨quietPass, [], .inr ⟨rfl, rfl, rfl⟩, ?_⟩
    simpa only [hi] using key quietPass s
  · cases inp with
    | pass p => exact .inl ⟨p, rest, .inl rfl, key p { s with inputs := rest }⟩
    | reset r => exact .inr ⟨r, rest, rfl, rfl⟩

/-- The step of a running core whose next input is the pass `p`. -/
theorem step_running {p : PassInput} {rest : List Input} (hs : s.status = .running)
    (hn : s.inputs = .pass p :: rest ∨ (s.inputs = [] ∧ p = quietPass ∧ rest = [])) :
    step s = runningPass p { s with inputs := rest, clock := s.clock + p.advance } := by
  unfold step runNextInput
  rcases hn with h | ⟨h, rfl, rfl⟩ <;> simp [h, schedulerPass, hs]

end Sys2Proof.Machine
end

