-- ==== Sys2Proof/Laws/Screen.lean ====
section
/-! SUPPORT. Pixels of the display. -/

namespace Sys2Proof.Machine

@[simp] theorem Display.pixel_clear (px py : Nat) : Display.clear.pixel px py = false := by
  unfold Display.pixel Display.clear
  split <;> simp

/-- Outside the grid a pixel reads false. -/
theorem Display.pixel_outside (d : Display) {px py : Nat} (h : ¬(px < 64 ∧ py < 32)) : d.pixel px py = false := dif_neg h

/-- A pixel write is seen in its own pixel and nowhere else. -/
theorem Display.pixel_setPixel (d : Display) (px py qx qy : Nat) (b : Bool) :
    (d.setPixel px py b).pixel qx qy = if px < 64 ∧ py < 32 ∧ qx = px ∧ qy = py then b else d.pixel qx qy := by
  unfold Display.setPixel
  by_cases h : px < 64 ∧ py < 32
  · rw [dif_pos h]
    by_cases hq : qx < 64 ∧ qy < 32
    · simp only [Display.pixel, dif_pos hq, Vector.getElem_set]
      by_cases hx : px = qx
      · subst hx
        by_cases hy : py = qy
        · subst hy; simp [h]
        · simp [hy, Ne.symm hy]
      · simp [hx, Ne.symm hx]
    · rw [Display.pixel_outside _ hq, Display.pixel_outside _ hq, if_neg]
      rintro ⟨_, _, rfl, rfl⟩
      exact hq h
  · rw [dif_neg h, if_neg]
    exact fun c => h ⟨c.1, c.2.1⟩

/-- Displays with the same pixels are the same. -/
theorem Display.ext_pixel {d e : Display} (h : ∀ px py, px < 64 → py < 32 → d.pixel px py = e.pixel px py) : d = e := by
  apply Vector.ext
  intro px hx
  apply Vector.ext
  intro py hy
  have := h px py hx hy
  simpa only [Display.pixel, dif_pos (And.intro hx hy)] using this

/-- DRW raises the bounds fault of its n bytes, or draws and writes the flag. -/
theorem execDrw_cases (x y : Reg) (n : Fin 16) (s : State) :
    (0 < n.val ∧ 4096 < s.i.toNat + n.val ∧ execDrw x y n s =
      s.raise (.memoryBoundsError (max s.i.toNat 4096) (s.pc - 2) (some (encodeWord (.drw x y n))))) ∨
    ((n.val = 0 ∨ s.i.toNat + n.val ≤ 4096) ∧ ∃ d c,
      drawSprite s.display (s.reg x) (s.reg y) (s.mem.readRange s.i.toNat n.val) = (d, c) ∧
      execDrw x y n s = .next (({ s with display := d } : State).setReg vf (collisionFlag c))) := by
  obtain ⟨h1, h2, e⟩ | ⟨h, e⟩ := accessFromI_cases s (.drw x y n) n.val (.next (({ s with
    display := (drawSprite s.display (s.reg x) (s.reg y) (s.mem.readRange s.i.toNat n.val)).1 } : State).setReg vf
      (collisionFlag (drawSprite s.display (s.reg x) (s.reg y) (s.mem.readRange s.i.toNat n.val)).2)))
  · exact .inl ⟨h1, h2, e⟩
  · exact .inr ⟨h, _, _, rfl, e⟩

end Sys2Proof.Machine
end

