-- ==== Sys2Proof/Tests/Slice0.lean ====
section
/-! SUPPORT. The model's own tests. Expected results are taken from spec/95_test_vectors.md (vector named in each
docstring) or from the rule named there; the last part gives, for every statement with hypotheses, values that meet
them. -/

namespace Sys2Proof.Tests

open Sys2Proof Sys2Proof.Machine Sys2Proof.Safety

/-! ## Helpers -/

/-- State.reset in a session of dialect `d`, with the given registers set. -/
def start (d : Dialect) (rs : List (Reg × Byte)) : State :=
  rs.foldl (fun s r => s.setReg r.1 r.2) (withDialect d State.reset)

/-- A look at the next state. -/
def look {α : Type} (f : State → α) : Result → Option α
  | .next t => some (f t)
  | .fault _ => none
  | .refused _ => none

/-- One step that fetches the word at PC, and a look at what it leaves. -/
def ran {α : Type} (w : Nat) (s : State) (f : State → α) : Option α := look f (step (s.withFetchWord 16 w))

/-- The values of some registers. -/
def vs (rs : List Reg) (s : State) : List Byte := rs.map s.reg

/-- `count` bytes of memory from `a` up. -/
def bytesAt (a count : Nat) (s : State) : List Byte := s.mem.readRange a count

/-- The pixels of a column range of a row. -/
def row (py x0 count : Nat) (s : State) : List Bool := (List.range count).map fun k => s.display.pixel (x0 + k) py

/-! ## WellFormed refuses what no word decodes to -/

theorem test_wf_refuses_sys_of_cls_word : (Instr.sys 0x0E0).wf = false := by decide
theorem test_wf_refuses_sys_of_ret_word : (Instr.sys 0x0EE).wf = false := by decide
theorem test_wf_refuses_unsupported_listed_word : (Instr.unsupported 0x8124).wf = false := by decide

/-! ## Words written out from the patterns of 30_encoding.md R77 -/

theorem test_decode_flow :
    [0x00E0, 0x00EE, 0x01E0, 0x00FF, 0x1208, 0x2300, 0x3310, 0x4311, 0x5120, 0x9120, 0xB300].map (decodeTableWord 16) =
    [some .cls, some .ret, some (.sys 0x1E0), some (.sys 0x0FF), some (.jp 0x208), some (.call 0x300),
     some (.seImm 3 0x10), some (.sneImm 3 0x11), some (.seReg 1 2), some (.sneReg 1 2), some (.jpo 0x300)] := by decide

theorem test_decode_alu :
    [0x652A, 0x72FF, 0x8120, 0x8121, 0x8122, 0x8123, 0x8124, 0x8125, 0x8126, 0x8127, 0x812E, 0xC10F].map
      (decodeTableWord 16) =
    [some (.ldImm 5 0x2A), some (.addImm 2 0xFF), some (.ldReg 1 2), some (.orReg 1 2), some (.andReg 1 2),
     some (.xorReg 1 2), some (.addReg 1 2), some (.sub 1 2), some (.shr 1 2), some (.subn 1 2), some (.shl 1 2),
     some (.rnd 1 0x0F)] := by decide

theorem test_decode_memory_and_screen :
    [0xA250, 0xD125, 0xF41E, 0xFA29, 0xF333, 0xF155, 0xF265].map (decodeTableWord 16) =
    [some (.ldI 0x250), some (.drw 1 2 5), some (.addI 4), some (.ldF 10), some (.ldB 3), some (.stRegs 1),
     some (.ldRegs 2)] := by decide

theorem test_decode_keys_and_timers :
    [0xE19E, 0xE2A1, 0xF207, 0xF40A, 0xF215, 0xF318].map (decodeTableWord 16) =
    [some (.skp 1), some (.sknp 2), some (.ldVxDt 2), some (.ldVxK 4), some (.ldDt 2), some (.ldSt 3)] := by decide

/-- Vectors E.8 to E.13. -/
theorem test_decode_unsupported :
    ([0x5121, 0x9121, 0x8128, 0x812F, 0xE19F, 0xE1A0, 0xF100, 0xF1FF, 0xF130, 0xF175, 0xF185, 0xFFFF] : List Word).all
      (fun w => decodeWord w == .unsupported w) = true := by decide

theorem test_decode_truncated : decode [0x12] = .error .truncated ∧ decode [] = .error .truncated := by decide

/-- Every mask and match of the table's rows fits together, so every DecodesTo clause has words. -/
theorem test_rows_have_words : opcodeRows.all (fun r => r.pattern &&& r.mask == r.pattern) = true := by decide

/-! ## Fetch and faults -/

/-- E.2: a fetch at 0x0FFF faults at 0x1000 and leaves PC. -/
theorem test_fetch_at_top : look (fun t => (t.status, t.pc)) (step (State.reset.setPc 0x0FFF)) =
    some (.faulted (.memoryBoundsError 0x1000 0x0FFF none), 0x0FFF) := by decide

/-- R51's pseudocode, PC > 4095: the address recorded is PC itself, also at 0xFFFF (log 22), and the `fault` port
carries the fault. -/
theorem test_fetch_above_top : look (fun t => (t.faultPort, t.pc)) (step (State.reset.setPc 0xFFFF)) =
    some (some (.memoryBoundsError 0xFFFF 0xFFFF none), 0xFFFF) := by decide

/-- E.4: an odd PC is legal. -/
theorem test_fetch_odd : ran 0x6123 (State.reset.setPc 0x0201) (fun t => (t.reg 1, t.pc)) = some (0x23, 0x0203) := by
  decide

/-- E.8: the word is reported with its address and nothing else happens. -/
theorem test_unsupported : ran 0x5121 (start .superchip [(1, 7), (2, 7)]) (fun t => (t.diag, t.pc)) =
    some ([.unsupportedOpcode 0x0200 0x5121], 0x0202) := by decide

/-! ## Control transfer -/

/-- F.1. -/
theorem test_ret_underflow : ran 0x00EE State.reset (fun t => (t.diag, t.sp, t.pc)) =
    some ([.callStackUnderflow 0x0200], 0, 0x0202) := by decide

/-- L1.4, its last RET. -/
theorem test_ret : ran 0x00EE { State.reset with sp := 1, stack := State.reset.stack.set 0 0x0202, pc := 0x0302 }
    (fun t => (t.sp, t.pc)) = some (0, 0x0202) := by decide

set_option maxRecDepth 4096 in
/-- E.6. -/
theorem test_sys : ran 0x00EF State.reset (fun t => (t.stack[0], t.sp, t.pc)) = some (0x0202, 1, 0x00EF) := by decide

/-- F.6. -/
theorem test_jp : ran 0x1FFF State.reset State.pc = some 0x0FFF := by decide

set_option maxRecDepth 4096 in
/-- F.4: the last free entry. -/
theorem test_call_last_entry : ran 0x2300 { State.reset with sp := 254 } (fun t => (t.stack[254], t.sp, t.pc)) =
    some (0x0202, 255, 0x0300) := by decide

set_option maxRecDepth 4096 in
/-- F.3. -/
theorem test_call_overflow : ran 0x2300 { State.reset with sp := 255 } (fun t => (t.diag, t.sp, t.pc)) =
    some ([.callStackOverflow 0x0200], 255, 0x0202) := by decide

/-- F.9. -/
theorem test_se_imm : (ran 0x3310 (start .chip48 [(3, 0x10)]) State.pc, ran 0x3311 (start .chip48 [(3, 0x10)]) State.pc) =
    (some 0x0204, some 0x0202) := by decide

/-- F.10. -/
theorem test_sne_imm :
    (ran 0x4310 (start .chip48 [(3, 0x10)]) State.pc, ran 0x4311 (start .chip48 [(3, 0x10)]) State.pc) =
    (some 0x0202, some 0x0204) := by decide

/-- R107's example and its opposite. -/
theorem test_se_reg : (ran 0x5120 (start .cosmacvip [(1, 7), (2, 7)]) State.pc,
    ran 0x5120 (start .cosmacvip [(1, 7), (2, 8)]) State.pc) = (some 0x0204, some 0x0202) := by decide

/-- R108's example and F.13. -/
theorem test_sne_reg : (ran 0x9120 (start .cosmacvip [(1, 7), (2, 8)]) State.pc,
    ran 0x9110 (start .cosmacvip [(1, 7), (2, 8)]) State.pc) = (some 0x0204, some 0x0202) := by decide

/-- F.15, F.16, F.17. -/
theorem test_jpo : (ran 0xB300 (start .cosmacvip [(0, 4), (3, 9)]) State.pc,
    ran 0xB300 (start .superchip [(0, 4), (3, 9)]) State.pc, ran 0xBFFF (start .cosmacvip [(0, 0xFF)]) State.pc) =
    (some 0x0304, some 0x0309, some 0x10FE) := by decide

/-- F.19. -/
theorem test_jpo_chip48 : ran 0xB300 (start .chip48 [(0, 4)]) (fun t => (t.status, t.pc)) =
    some (.faulted (.undefinedJumpOffset 0x0200 0xB300), 0x0200) := by decide

/-! ## Arithmetic and logic -/

/-- A.1. -/
theorem test_ld_imm : ran 0x652A State.reset (vs [5]) = some [0x2A] := by decide

/-- A.2 and A.3. -/
theorem test_add_imm : (ran 0x7201 (start .chip48 [(2, 0xFF), (15, 5)]) (vs [2, 15]),
    ran 0x7FFF (start .chip48 [(15, 1)]) (vs [15])) = (some [0x00, 0x05], some [0x00]) := by decide

/-- A.4. -/
theorem test_ld_reg : ran 0x8F10 (start .superchip [(1, 0x33)]) (vs [15, 1]) = some [0x33, 0x33] := by decide

/-- L1.1 and L1.2: the word 8121. -/
theorem test_or : (ran 0x8121 (start .cosmacvip [(1, 0x0C), (2, 0x30), (15, 1)]) (vs [1, 15]),
    ran 0x8121 (start .chip48 [(1, 0x0C), (2, 0x30), (15, 1)]) (vs [1, 15])) =
    (some [0x3C, 0x00], some [0x3C, 0x01]) := by decide

/-- A.5 and A.6: VF as the destination. -/
theorem test_or_into_vf : (ran 0x8F11 (start .cosmacvip [(1, 0xF0), (15, 0x0F)]) (vs [15]),
    ran 0x8F11 (start .chip48 [(1, 0xF0), (15, 0x0F)]) (vs [15])) = (some [0x00], some [0xFF]) := by decide

/-- R125's example and A.7. -/
theorem test_and : (ran 0x8122 (start .cosmacvip [(1, 0x0F), (2, 0x3C), (15, 1)]) (vs [1, 15]),
    ran 0x81F2 (start .superchip [(1, 0xFF), (15, 0x0F)]) (vs [1, 15])) = (some [0x0C, 0x00], some [0x0F, 0x0F]) := by
  decide

/-- R126's example and A.8. -/
theorem test_xor : (ran 0x8123 (start .chip48 [(1, 0xFF), (2, 0x0F), (15, 1)]) (vs [1, 15]),
    ran 0x8113 (start .cosmacvip [(1, 0x55), (15, 1)]) (vs [1, 15])) = (some [0xF0, 0x01], some [0x00, 0x00]) := by decide

/-- L1.7 and A.10. -/
theorem test_add_reg : (ran 0x8124 (start .chip48 [(1, 0xFF), (2, 1)]) (vs [1, 15]),
    ran 0x8124 (start .chip48 [(1, 0xFF), (2, 0), (15, 1)]) (vs [1, 15])) = (some [0x00, 0x01], some [0xFF, 0x00]) := by
  decide

/-- A.12 and A.13: VF as the destination and as the addend. -/
theorem test_add_reg_vf : (ran 0x8F14 (start .chip48 [(1, 1), (15, 0xFF)]) (vs [15]),
    ran 0x81F4 (start .chip48 [(1, 5), (15, 3)]) (vs [1, 15])) = (some [0x01], some [0x08, 0x00]) := by decide

/-- L1.8 and A.17. -/
theorem test_sub : (ran 0x8125 (start .chip48 [(1, 1), (2, 2), (15, 1)]) (vs [1, 15]),
    ran 0x8125 (start .chip48 [(1, 0x10), (2, 0x10)]) (vs [1, 15])) = (some [0xFF, 0x00], some [0x00, 0x01]) := by decide

/-- A.18 and A.19: VF as the subtrahend and as the destination. -/
theorem test_sub_vf : (ran 0x81F5 (start .chip48 [(1, 5), (15, 3)]) (vs [1, 15]),
    ran 0x8F15 (start .chip48 [(1, 9), (15, 5)]) (vs [15])) = (some [0x02, 0x01], some [0x00]) := by decide

/-- A.20 and A.22. -/
theorem test_subn : (ran 0x8127 (start .chip48 [(1, 2), (2, 1), (15, 1)]) (vs [1, 15]),
    ran 0x8127 (start .chip48 [(1, 1), (2, 0xFF)]) (vs [1, 15])) = (some [0xFF, 0x00], some [0xFE, 0x01]) := by decide

/-- A.23, A.24, A.26. -/
theorem test_shr : (ran 0x8126 (start .cosmacvip [(1, 0), (2, 5)]) (vs [1, 15, 2]),
    ran 0x8126 (start .chip48 [(1, 0), (2, 5)]) (vs [1, 15]), ran 0x8F06 (start .cosmacvip [(0, 2)]) (vs [15])) =
    (some [0x02, 0x01, 0x05], some [0x00, 0x00], some [0x00]) := by decide

/-- A.27, A.28, A.29. -/
theorem test_shl : (ran 0x812E (start .cosmacvip [(1, 1), (2, 0x81)]) (vs [1, 15]),
    ran 0x812E (start .chip48 [(1, 1), (2, 0x81)]) (vs [1, 15]), ran 0x810E (start .superchip [(1, 0xFF)]) (vs [1, 15])) =
    (some [0x02, 0x01], some [0x02, 0x00], some [0xFE, 0x01]) := by decide

/-- A.32, and R135's "One draw is taken per execution"; the draw itself is a free value that no test can fix. -/
theorem test_rnd : ran 0xC000 (start .chip48 [(0, 0xFF)]) State.draws = some 1 := by decide

/-! ## Index register and memory -/

/-- M.1. -/
theorem test_ld_i : ran 0xAFFF State.reset State.i = some 0x0FFF := by decide

/-- M.2 and M.3. -/
theorem test_add_i : (ran 0xF11E ((start .chip48 [(1, 1), (15, 7)]).setI 0x0FFF) (fun t => (t.i, t.reg 15)),
    ran 0xF11E ((start .chip48 [(1, 2)]).setI 0xFFFF) State.i) = (some (0x1000, 0x07), some 0x0001) := by decide

/-- M.4: the last two values. -/
theorem test_ld_f : (ran 0xF029 (start .chip48 [(0, 0x0F)]) State.i, ran 0xF029 (start .chip48 [(0, 0x1A)]) State.i) =
    (some 0x009B, some 0x0082) := by decide

/-- M.6: at the top of memory. -/
theorem test_ld_b : ran 0xF033 ((start .cosmacvip [(0, 0x7B)]).setI 0x0FFD) (fun t => (bytesAt 0xFFD 3 t, t.i)) =
    some ([0x01, 0x02, 0x03], 0x0FFD) := by decide

/-- M.7: no byte is stored and PC stays. -/
theorem test_ld_b_bounds : ran 0xF033 ((start .cosmacvip [(0, 0x7B)]).setI 0x0FFE)
    (fun t => (t.status, bytesAt 0xFFE 2 t, t.pc)) =
    some (.faulted (.memoryBoundsError 0x1000 0x0200 (some 0xF033)), [0x00, 0x00], 0x0200) := by decide

/-- R144's example, under COSMACVIP and SUPERCHIP. -/
theorem test_st_regs :
    (ran 0xF155 ((start .cosmacvip [(0, 0x11), (1, 0x22), (2, 0x33)]).setI 0x0300) (fun t => (bytesAt 0x300 3 t, t.i)),
     ran 0xF155 ((start .superchip [(0, 0x11), (1, 0x22)]).setI 0x0300) State.i) =
    (some ([0x11, 0x22, 0x00], 0x0302), some 0x0300) := by decide

/-- M.11. -/
theorem test_st_regs_bounds : ran 0xFF55 ((start .chip48 [(0, 9)]).setI 0x0FF1)
    (fun t => (t.status, bytesAt 0xFF1 1 t)) =
    some (.faulted (.memoryBoundsError 0x1000 0x0200 (some 0xFF55)), [0x00]) := by decide

/-- M.17, with the increment of L1.5 and a register above the range left alone. -/
theorem test_ld_regs : ran 0xF465 ((start .cosmacvip [(5, 0x77)]).setI 0x0050)
    (fun t => (vs [0, 1, 2, 3, 4, 5] t, t.i)) = some ([0xF0, 0x90, 0x90, 0x90, 0xF0, 0x77], 0x0055) := by decide

/-- M.16. -/
theorem test_ld_regs_bounds : ran 0xF165 ((start .chip48 [(0, 9)]).setI 0x0FFF) (fun t => (t.status, vs [0] t)) =
    some (.faulted (.memoryBoundsError 0x1000 0x0200 (some 0xF165)), [0x09]) := by decide

/-! ## Display -/

/-- D.1. -/
theorem test_cls : ran 0x00E0 { State.reset with display := Display.clear.setPixel 3 4 true }
    (fun t => t.display.pixel 3 4) = some false := by decide

/-- D.4: glyph 0 at (0, 1), row by row, VF = 0. -/
theorem test_drw : ran 0xD015 ((start .chip48 [(1, 0x21), (15, 1)]).setI 0x0050)
    (fun t => (row 0 0 5 t, row 1 0 5 t, row 2 0 5 t, t.reg 15)) =
    some ([false, false, false, false, false], [true, true, true, true, false], [true, false, false, true, false], 0) := by
  decide

/-- D.7 (the clip at the right edge; (0, 0) is left alone) and D.8 (the collision), in one byte each. -/
theorem test_drw_clip_and_collision :
    (ran 0xD011 (({ start .chip48 [(0, 60)] with
        display := Display.clear.setPixel 0 0 true, mem := Memory.write [] 0x300 0xFF } : State).setI 0x0300)
      (fun t => (row 0 60 4 t, t.display.pixel 0 0, t.reg 15)),
     ran 0xD011 (({ start .chip48 [] with
        display := Display.clear.setPixel 0 0 true, mem := Memory.write [] 0x300 0x80 } : State).setI 0x0300)
      (fun t => (t.display.pixel 0 0, t.reg 15))) =
    (some ([true, true, true, true], true, 0), some (false, 1)) := by decide

/-! ## Keys, timers and the scheduler -/

/-- K.1 and K.3. -/
theorem test_skp : (ran 0xE19E { start .chip48 [(1, 5)] with keys := State.reset.keys.set 5 true } State.pc,
    ran 0xE19E { start .chip48 [(1, 0x10)] with keys := Vector.replicate 16 true } State.pc) =
    (some 0x0204, some 0x0202) := by decide

/-- R183's example and K.4. -/
theorem test_sknp : (ran 0xE1A1 (start .chip48 [(1, 5)]) State.pc,
    ran 0xE1A1 { start .chip48 [(1, 0x10)] with keys := Vector.replicate 16 true } State.pc) =
    (some 0x0204, some 0x0204) := by decide

/-- K.5. -/
theorem test_ld_vx_dt : ran 0xF207 { State.reset with dt := 0x3C } (vs [2]) = some [0x3C] := by decide

/-- K.6. -/
theorem test_ld_dt : ran 0xF215 { State.reset with dt := 0x10 } State.dt = some 0x00 := by decide

/-- K.7: TONE changes at the next timer tick only. -/
theorem test_ld_st : (ran 0xF318 { State.reset with st := 5, tone := true } (fun t => (t.st, t.tone)),
    ran 0xF318 { State.reset with st := 5, tone := true } (fun t => t.timerTick.tone)) =
    (some (0, true), some false) := by decide

/-- K.8: dispatch 1. -/
theorem test_ld_vx_k_starts : ran 0xF40A (State.reset.setPc 0x0300) (fun t => (t.kw, t.pc)) =
    some (.waitingForPress, 0x0300) := by decide

/-- K.11. -/
theorem test_ld_vx_k_completes : ran 0xFF0A { State.reset with kw := .waitingForRelease 9 true }
    (fun t => (t.reg 15, t.kw, t.pc)) = some (0x09, .idle, 0x0202) := by decide

/-- K.10: another key's edges do not count. -/
theorem test_key_edges :
    (({ State.reset with kw := .waitingForPress } : State).deliverEdges [.press 1, .press 2, .release 2]).kw =
      .waitingForRelease 1 false ∧
    (({ State.reset with kw := .waitingForPress } : State).deliverEdges
      [.press 1, .press 2, .release 2, .release 1]).kw = .waitingForRelease 1 true := by decide

/-- S.4: one tick only, stamped with the sample. -/
theorem test_timer_no_catch_up : look (fun t => (t.dt, t.lastTimer, t.frames.length))
    (step { State.reset with dt := 10, inputs := [.pass { advance := 5, edges := [], quit := false }] }) =
    some (9, 5, 1) := by decide

/-- S.8: edges first, then quit, and no tick. -/
theorem test_quit : look (fun t => (t.keys[4], t.status, t.dt))
    (step { State.reset with dt := 5, inputs := [.pass { advance := 9, edges := [.press 4], quit := true }] }) =
    some (true, .quit, 5) := by decide

/-- A reset request with State.reset's parameters. -/
def request (rom : List Byte) (fields : ConfigFields) : ResetRequest := ⟨0, rom, fields, resetParams⟩

/-- R.8 and R.9: an accepted reset, while Quit. -/
theorem test_reset_accepted : look (fun t => (t.status, t.pc, t.cfg.throttle, bytesAt 0x200 3 t, t.diag))
    (step { State.reset with
      status := .quit, pc := 7, inputs := [.reset (request [0x12, 0x00] { resetFields with frequencyCpu := 500 })] }) =
    some (.running, 0x0200, false, [0x12, 0x00, 0x00], []) := by decide

/-- R.4. -/
theorem test_reset_rejected : look State.status
    (step { State.reset with inputs := [.reset (request [] { resetFields with chipMode := 3 })] }) =
    some (.faulted (.configParseError .chipMode)) := by decide

/-! ## Witnesses: values that meet the hypotheses of each statement that has any, clause by clause, at the ends of
their ranges. A DecodesTo clause is met by its row's match (test_rows_have_words). -/

theorem witness_DecodeInvertsEncode :
    (Instr.sys 0x0E1).wf = true ∧ (Instr.sys 0xFFF).wf = true ∧ (Instr.unsupported 0xFFFF).wf = true ∧
    (Instr.drw 15 15 15).wf = true := by decide

theorem witness_DialectMattersOnlyToQuirkInstructions :
    consultsQuirks .cls = false ∧ consultsQuirks (.subn 1 2) = false ∧ consultsQuirks (.ldB 3) = false := by decide

/-- A throttled core whose period has elapsed, with `LD V1, 0x23` at PC, and the pass that finds it so. -/
def throttled : State :=
  { State.reset.setPc 0x0FFE with
    mem := Memory.writeRange [] 0x0FFE [0x61, 0x23], cfg := { resetConfig with throttle := true, cpuPeriod := some 2 } }

/-- A pass that moves the clock on. -/
def passOf (advance : Nat) : PassInput := ⟨advance, [], false⟩

theorem witness_StepRunsTheDecodedInstruction :
    throttled.status = .running ∧ NextIsPass { throttled with inputs := [.pass (passOf 2)] } (passOf 2) [] ∧
    (passOf 2).quit = false ∧
    (let b := State.beforeCpu { throttled with inputs := [], clock := 2 } (passOf 2)
     b.throttlePeriod = some 2 ∧ 2 ≤ b.clock - b.lastCpu ∧ b.pc.toNat + 1 = 4095 ∧
      decode [b.readByte b.pc.toNat, b.readByte (b.pc.toNat + 1)] = .ok (.ldImm 1 0x23, [])) :=
  ⟨rfl, .inl rfl, rfl, by decide⟩

theorem witness_StepRunsTheDecodedInstruction_unthrottled :
    State.reset.status = .running ∧ NextIsPass State.reset quietPass [] ∧
    (State.beforeCpu State.reset quietPass).throttlePeriod = none ∧
    decode [State.reset.readByte 0x200, State.reset.readByte 0x201] = .ok (.sys 0, []) :=
  ⟨rfl, .inr ⟨rfl, rfl, rfl⟩, by decide, by decide⟩

theorem witness_FetchReadsTheWordAtPc :
    (State.reset.setPc 0x0FFE).pc.toNat + 1 = 4095 ∧ (State.reset.setPc 0x0FFF).pc.toNat = 4095 ∧
    4095 < (State.reset.setPc 0x1000).pc.toNat ∧ 4095 < (State.reset.setPc 0xFFFF).pc.toNat := by decide

theorem witness_FaultChangesOnlyTheStatus :
    fetch (State.reset.setPc 0x1000) = .error (.memoryBoundsError 0x1000 0x1000 none) ∧
    (∃ t, fetch throttled = .ok (0x6123, t)) ∧
    raisedFault (.ldB 0) (State.reset.setI 0x0FFE) = some (.memoryBoundsError 0x1000 0x01FE (some 0xF033)) ∧
    raisedFault (.ldB 0) (State.reset.setI 0x0FFD) = none :=
  ⟨rfl, ⟨_, rfl⟩, by decide, by decide⟩

/-- A word fetched at 0x0200 that raises a fault: `LD B, V0` with I at 0x0FFE. -/
theorem witness_FaultChangesOnlyTheStatus_word :
    ∃ t, fetch ({ State.reset with i := 0x0FFE, mem := Memory.writeRange [] 0x200 [0xF0, 0x33] } : State) =
      .ok (0xF033, t) ∧ (raisedFault (decodeWord 0xF033) t).isSome = true := ⟨_, rfl, by decide⟩

theorem witness_StoppedCoreIsFrozen (f : Fault) :
    ({ State.reset with status := .faulted f, inputs := [.pass (passOf 7)] } : State).status ≠ .running ∧
    ({ State.reset with status := .quit } : State).status ≠ .running ∧
    ∀ inp ∈ [Input.pass (passOf 7)], ∃ p, inp = .pass p := by simp

theorem witness_QuitEndsThePassBeforeAnyCadence :
    let s := { State.reset with inputs := [.pass ⟨9, [.press 4], true⟩] }
    s.status = .running ∧ NextIsPass s ⟨9, [.press 4], true⟩ [] := ⟨rfl, .inl rfl⟩

theorem witness_ToneLastsOneTickLessThanTheSoundTimer : 1 ≤ 1 := by decide

theorem witness_PassDoesTimerAndFrameWorkOnce :
    (State.reset.status = .running ∧ NextIsPass State.reset quietPass [] ∧ quietPass.quit = false ∧
      ¬ TimerDue State.reset quietPass ∧ ∃ t, step State.reset = .next t) ∧
    (let s := { throttled with inputs := [.pass (passOf 2)] }
     NextIsPass s (passOf 2) [] ∧ TimerDue s (passOf 2) ∧ FrameDue s (passOf 2) ∧
      (∃ t, step s = .next t) ∧ decodeWord (wordAtPc s) = .ldImm 1 0x23) ∧
    (∀ x, Instr.ldImm 1 0x23 ≠ .ldDt x) ∧ ∀ x, Instr.ldImm 1 0x23 ≠ .ldSt x :=
  ⟨⟨rfl, .inr ⟨rfl, rfl, rfl⟩, rfl, by decide, _, rfl⟩,
    ⟨.inl rfl, by decide, by decide, ⟨_, rfl⟩, by decide⟩, nofun, nofun⟩

theorem witness_ThrottledPassNotDueRunsNoInstruction :
    let s := { throttled with inputs := [.pass (passOf 1)] }
    s.status = .running ∧ NextIsPass s (passOf 1) [] ∧ (passOf 1).quit = false ∧ s.cfg.throttle = true ∧
      s.cfg.cpuPeriod = some 2 ∧ sampleOf s (passOf 1) - s.lastCpu < 2 :=
  ⟨rfl, .inl rfl, rfl, rfl, rfl, by decide⟩

theorem witness_CpuCadenceRunsOneCycleWhenDue :
    resetConfig.throttle = false ∧ resetConfig.cpuPeriod = none ∧ throttled.cfg.throttle = true ∧
    throttled.cfg.cpuPeriod = some 2 := by decide

theorem witness_InstructionsWriteOnlyTheirMatrixRow :
    raisedFault (.stRegs 0) (State.reset.setI 0x0FFF) = none ∧
    (∃ t, exec (.stRegs 0) (State.reset.setI 0x0FFF) = .next t) ∧ Component.display ∉ writes (.stRegs 0) :=
  ⟨by decide, ⟨_, rfl⟩, by decide⟩

/-- A state with `JP 0x200` at 0x0200, where PC is. -/
def selfJump : State := { State.reset with mem := Memory.writeRange [] 0x200 [0x12, 0x00] }

theorem witness_SelfJumpKeepsRunning :
    let s := { selfJump with inputs := [.pass (passOf 2)] }
    selfJump.status = .running ∧ NextIsPass selfJump quietPass [] ∧ quietPass.quit = false ∧
    CpuDue selfJump quietPass ∧ NextIsPass s (passOf 2) [] ∧ CpuDue s (passOf 2) ∧
    selfJump.pc = addressOf 0x200 ∧ selfJump.pc.toNat + 1 ≤ 4095 ∧ decodeWord (wordAtPc selfJump) = .jp 0x200 :=
  ⟨rfl, .inr ⟨rfl, rfl, rfl⟩, rfl, nofun, .inl rfl, nofun, rfl, by decide, by decide⟩

/-- The same for a throttled core, whose period of 2 has just elapsed. -/
theorem witness_SelfJumpKeepsRunning_throttled :
    let s := { selfJump with cfg := throttled.cfg, inputs := [.pass (passOf 2)] }
    s.throttlePeriod = some 2 ∧ NextIsPass s (passOf 2) [] ∧ CpuDue s (passOf 2) :=
  ⟨rfl, .inl rfl, fun _ h => Option.some.inj h ▸ Nat.le_refl 2⟩

/-- A state that waits for a key: `LD V4, K` at PC, and KW past the press. -/
def waiting : State :=
  { State.reset with mem := Memory.writeRange [] 0x200 [0xF4, 0x0A], kw := .waitingForRelease 7 false, clock := 3, sp := 255 }

/-- A state other than State.reset that meets the state invariant, and a step from it. -/
theorem witness_StepKeepsTheStateInvariant : StateInv waiting ∧ ∃ t, step waiting = .next t :=
  ⟨⟨by decide, by decide, by decide, by decide, by decide, by decide, by decide,
    fun p h => Option.noConfusion rfl (heq_of_eq h)⟩, _, rfl⟩

theorem witness_StepKeepsTheKeyWaitInvariant : waiting.kw ≠ .idle ∧ KeyWaitInv waiting ∧ ∃ t, step waiting = .next t :=
  ⟨by decide, fun _ => ⟨by decide, 4, by decide⟩, _, rfl⟩

/-- Each accepted CHIP_MODE and the values at the ends of the other fields' ranges; the reset is the next input. -/
theorem witness_AcceptedResetStartsASession :
    ({ State.reset with inputs := [.reset (request [0x12] resetFields)] } : State).inputs =
      .reset (request [0x12] resetFields) :: [] ∧
    Accepts resetFields .cosmacvip ∧ Accepts { resetFields with chipMode := 2 } .chip48 ∧
    Accepts { resetFields with chipMode := 4, frequencyCpu := 1, frameRate := 1 } .superchip ∧
    resetFields.frequencyCpu = 0 ∧ resetParams.timerPeriod = none := by unfold Accepts; decide

theorem witness_RejectedResetFaults :
    ({ State.reset with inputs := [.reset (request [] { resetFields with chipMode := 0 })] } : State).inputs =
      .reset (request [] { resetFields with chipMode := 0 }) :: [] ∧
    ((0 : BitVec 8) ≠ 1 ∧ (0 : BitVec 8) ≠ 2 ∧ (0 : BitVec 8) ≠ 4) ∧
    { resetFields with frequencyCpu := -1 }.frequencyCpu < 0 ∧ { resetFields with frameRate := 0 }.frameRate ≤ 0 := by
  decide

theorem witness_ResetLoadsFontAndRom (rom : List Byte) :
    ({ State.reset with inputs := [.reset (request rom resetFields)] } : State).inputs =
      .reset (request rom resetFields) :: [] ∧ Accepts (request rom resetFields).fields .cosmacvip ∧
    3583 < (List.replicate 3584 (0 : Byte)).length ∧ ¬ 3583 < (List.replicate 3583 (0 : Byte)).length :=
  ⟨rfl, witness_AcceptedResetStartsASession.2.1, by rw [List.length_replicate]; decide,
    by rw [List.length_replicate]; decide⟩

theorem witness_canonical_memory :
    Memory.wf [] = true ∧ Memory.wf [(0x000, 0x01), (0x050, 0x00), (0xFFF, 0xFF)] = true ∧
    Memory.wf [(0x200, 0x00)] = false ∧ Memory.wf [(0x1000, 0x01)] = false := by decide

theorem witness_StoredBytesAreFetched :
    let s := (start .chip48 [(0, 123)]).setI 0x0FFD
    ([1, 2, 3] : List Byte).map BitVec.toNat = [(s.reg 0).toNat / 100, (s.reg 0).toNat / 10 % 10, (s.reg 0).toNat % 10] ∧
    s.i.toNat + ([1, 2, 3] : List Byte).length = 4096 ∧ (s.setPc 0x0FFE).pc.toNat + 1 = 4095 ∧
    (∃ t, exec (.ldB 0) (s.setPc 0x0FFE) = .next t) ∧
    (∃ t, exec (.stRegs 2) (s.setPc 0x0FFE) = .next t) ∧
    s.i.toNat + ((List.range ((2 : Reg).val + 1)).map fun k => s.reg (Fin.ofNat 16 k)).length = 4096 ∧
    Memory.wf s.mem = true :=
  ⟨by decide, by decide, by decide, ⟨_, rfl⟩, ⟨_, rfl⟩, by decide, by decide⟩

theorem witness_RetPopsOrReports : ∃ s1 s2 s3 : State, s1.sp = 0 ∧ s2.sp = 1 ∧ s3.sp = 255 :=
  ⟨State.reset, { State.reset with sp := 1 }, { State.reset with sp := 255 }, rfl, rfl, rfl⟩

theorem witness_CallAndSysPushAndJumpOrReport :
    ((0x01E0 : Word) &&& 0xF000 = 0 ∧ (0x01E0 : Word) ≠ 0x00E0 ∧ (0x01E0 : Word) ≠ 0x00EE) ∧
    ∃ s1 s2 s3 : State, s1.sp = 0 ∧ s2.sp = 254 ∧ s3.sp = 255 :=
  ⟨by decide, State.reset, { State.reset with sp := 254 }, { State.reset with sp := 255 }, rfl, rfl, rfl⟩

theorem witness_SkipsOnRegisters :
    ((0x5121 : Word) &&& 0xF000 = 0x5000 ∧ (0x5121 : Word) &&& 0x000F ≠ 0) ∧
    ((0x912F : Word) &&& 0xF000 = 0x9000 ∧ (0x912F : Word) &&& 0x000F ≠ 0) := by decide

/-- Every dialect, and under CHIP48 every value of BNNN_CHIP48, is that of some state. -/
theorem witness_dialects (d : Dialect) (j : JumpChip48) :
    ∃ s : State, s.cfg.dialect = d ∧ s.cfg.bnnnChip48 = j :=
  ⟨{ State.reset with cfg := { resetConfig with dialect := d, bnnnChip48 := j } }, rfl, rfl⟩

theorem witness_UnsupportedWordOnlyReports : listedWord 0x5121 = false ∧ listedWord 0x8128 = false := by decide

theorem witness_CallStackIsLastInFirstOut : State.reset.sp + ([0x0202, 0x0302, 0x0402] : List Word).length ≤ 255 ∧
    ({ State.reset with sp := 254 } : State).sp + ([0x0202] : List Word).length = 255 := by decide

/-- The instruction forms the arithmetic statements quantify over exist with every register, VF among them. -/
theorem witness_arithmetic_forms (s : State) :
    (Instr.orReg 15 1 = .orReg 15 1 ∧ s.reg 15 ||| s.reg 1 = s.reg 15 ||| s.reg 1) ∧
    (Instr.sub 1 15 = .sub 1 15 ∧ (s.reg 1).toNat = (s.reg 1).toNat) ∧ (1 : Reg) ≠ vf := ⟨⟨rfl, rfl⟩, ⟨rfl, rfl⟩, by decide⟩

theorem witness_ranges_at_I :
    (State.reset.setI 0x0FFD).i.toNat + 2 = 4095 ∧ 4095 < (State.reset.setI 0x0FFE).i.toNat + 2 ∧
    (State.reset.setI 0x0FFF).i.toNat + (0 : Reg).val = 4095 ∧ 4095 < (State.reset.setI 0x0FF1).i.toNat + (15 : Reg).val ∧
    (State.reset.setI 0x0FF1).i.toNat + (15 : Fin 16).val - 1 = 4095 ∧
    4095 < (State.reset.setI 0x0FF2).i.toNat + (15 : Fin 16).val - 1 ∧ Memory.wf State.reset.mem = true := by decide

theorem witness_LoadInvertsStore : ∃ t, exec (.stRegs 15) (State.reset.setI 0x0FF0) = .next t := ⟨_, rfl⟩

theorem witness_DrawingTwiceRestoresTheDisplay :
    (0 : Reg) ≠ vf ∧ (State.reset.setI 0x0050).i.toNat + (5 : Fin 16).val - 1 ≤ 4095 ∧
    ∃ t, exec (.drw 0 0 5) (State.reset.setI 0x0050) = .next t := ⟨by decide, by decide, _, rfl⟩

theorem witness_KeySkipsTestTheKeypad :
    16 ≤ ((start .chip48 [(1, 0x10)]).reg 1).toNat ∧
    (start .chip48 [(1, 0x0F)]).keys[((start .chip48 [(1, 0x0F)]).reg 1).toNat]? = some false := by decide

theorem witness_key_wait_states (k : Fin 16) (r : Bool) :
    ∃ s1 s2 s3 : State, s1.kw = .idle ∧ s2.kw = .waitingForPress ∧ s3.kw = .waitingForRelease k r :=
  ⟨State.reset, { State.reset with kw := .waitingForPress }, { State.reset with kw := .waitingForRelease k r }, rfl, rfl, rfl⟩

theorem witness_PressAndReleaseInOnePassCompleteTheWait :
    let s := { waiting with kw := .waitingForPress, inputs := [.pass ⟨0, [.press 15, .release 15], false⟩] }
    s.status = .running ∧ s.throttlePeriod = none ∧ s.kw = .waitingForPress ∧ s.pc.toNat + 1 ≤ 4095 ∧
      decodeWord (wordAtPc s) = .ldVxK 4 ∧ s.inputs = .pass ⟨0, [.press 15, .release 15], false⟩ :: [] := by decide

end Sys2Proof.Tests
end

section
/-! SUPPORT. Where the bounds check and BNNN raise a fault, in the terms of `raisedFault` (60_exceptions.md R205). -/

namespace Sys2Proof.Safety

open Sys2Proof.Machine

variable {s : State} {i : Instr} {f : Fault}

/-- A computation answers one next state only. -/
theorem nextState_unique {r : Result} {t u : State} (ht : r = .next t) (hu : r = .next u) : t = u :=
  Host.Outcome.next.inj (ht.symm.trans hu)

theorem boundsFault_eq_none {count : Nat} (h : boundsFault i count s = none) :
    count = 0 ∨ s.i.toNat + count ≤ 4096 := by
  by_contra hout
  rw [boundsFault, if_pos (by omega)] at h
  cases h

theorem accessFromI_of_boundsFault_none {count : Nat} {go : Result} (h : boundsFault i count s = none) :
    accessFromI i count s go = go := by
  obtain ⟨hpos, hout, -⟩ | ⟨-, e⟩ := accessFromI_cases s i count go
  · simp [boundsFault, hpos, hout] at h
  · exact e

theorem accessFromI_of_boundsFault_some {count : Nat} {go : Result} (h : boundsFault i count s = some f) :
    accessFromI i count s go = s.raise f := by
  obtain ⟨hpos, hout, e⟩ | ⟨hin, -⟩ := accessFromI_cases s i count go
  · rw [boundsFault, if_pos ⟨hpos, hout⟩] at h
    rw [e, Option.some.inj h]
  · rw [boundsFault, if_neg (by omega)] at h
    cases h

/-- BNNN raises under CHIP48 with BNNN_CHIP48 = Fault, and otherwise moves PC only (40_flow.md R109, R110). -/
theorem execJpo_cases (nnn : BitVec 12) (s : State) :
    ((s.cfg.dialect = .chip48 ∧ s.cfg.bnnnChip48 = .fault) ∧
      execJpo nnn s = s.raise (.undefinedJumpOffset (s.pc - 2) (encodeWord (.jpo nnn)))) ∨
    (¬(s.cfg.dialect = .chip48 ∧ s.cfg.bnnnChip48 = .fault) ∧ ∃ a, execJpo nnn s = .next (s.setPc a)) := by
  unfold execJpo
  cases hd : s.cfg.dialect with
  | cosmacvip => exact .inr ⟨by simp, _, rfl⟩
  | superchip => exact .inr ⟨by simp, _, rfl⟩
  | chip48 =>
    cases hb : s.cfg.bnnnChip48 with
    | fault => exact .inl ⟨⟨rfl, rfl⟩, rfl⟩
    | sourceNoOp => exact .inr ⟨by simp, s.pc, rfl⟩
    | offsetV0 => exact .inr ⟨by simp, _, rfl⟩
    | offsetVX => exact .inr ⟨by simp, _, rfl⟩

/-- An instruction whose condition for a fault holds raises that fault. -/
theorem exec_eq_raise (h : raisedFault i s = some f) : exec i s = s.raise f := by
  cases i with
  | drw x y n => exact accessFromI_of_boundsFault_some h
  | ldB x => exact accessFromI_of_boundsFault_some h
  | stRegs x => exact accessFromI_of_boundsFault_some h
  | ldRegs x => exact accessFromI_of_boundsFault_some h
  | jpo nnn =>
    obtain ⟨hc, e⟩ | ⟨hc, -⟩ := execJpo_cases nnn s
    · rw [raisedFault, if_pos hc] at h
      exact e.trans (congrArg s.raise (Option.some.inj h))
    · rw [raisedFault, if_neg hc] at h
      cases h
  | _ => cases h

end Sys2Proof.Safety
end

section
/-! SUPPORT. `KeepsBut cs`: two states agree on every component outside `cs`. One lemma per kind of update, and from
them what each instruction leaves unchanged (10_state.md R43). -/

namespace Sys2Proof.Safety

open Sys2Proof.Machine

variable {s t u : State} {cs ds : List Component}

theorem Component.same_refl (s : State) (c : Component) : Component.same s s c := by
  cases c <;> simp [Component.same]

theorem Component.same_trans {c : Component} (h : Component.same s t c) (h' : Component.same t u c) :
    Component.same s u c := by
  cases c <;> simp_all [Component.same]

/-- The states agree on every component outside the list. -/
def KeepsBut (cs : List Component) (s t : State) : Prop := ∀ c, c ∉ cs → Component.same s t c

theorem KeepsBut.trans (h : KeepsBut cs s t) (h' : KeepsBut ds t u) : KeepsBut (cs ++ ds) s u := fun c hc =>
  Component.same_trans (h c fun m => hc (List.mem_append_left _ m)) (h' c fun m => hc (List.mem_append_right _ m))

theorem KeepsBut.mono (h : KeepsBut cs s t) (hsub : cs ⊆ ds) : KeepsBut ds s t := fun c hc =>
  h c fun m => hc (hsub m)

/-! One lemma per component an update may write. -/

theorem keepsBut_regs (s : State) (v : Vector Byte 16) : KeepsBut [.regs] s { s with v := v } := fun c hc => by
  have unwritten := Component.same_refl s c
  cases c with
  | regs => exact absurd (.head _) hc
  | _ => exact unwritten

theorem keepsBut_index (s : State) (a : Word) : KeepsBut [.index] s (s.setI a) := fun c hc => by
  have unwritten := Component.same_refl s c
  cases c with
  | index => exact absurd (.head _) hc
  | _ => exact unwritten

theorem keepsBut_pc (s : State) (a : Word) : KeepsBut [.pc] s (s.setPc a) := fun c hc => by
  have unwritten := Component.same_refl s c
  cases c with
  | pc => exact absurd (.head _) hc
  | _ => exact unwritten

theorem keepsBut_delay (s : State) (b : Byte) : KeepsBut [.delay] s { s with dt := b } := fun c hc => by
  have unwritten := Component.same_refl s c
  cases c with
  | delay => exact absurd (.head _) hc
  | _ => exact unwritten

theorem keepsBut_sound (s : State) (b : Byte) : KeepsBut [.sound] s { s with st := b } := fun c hc => by
  have unwritten := Component.same_refl s c
  cases c with
  | sound => exact absurd (.head _) hc
  | _ => exact unwritten

theorem keepsBut_stack (s : State) (st : Vector Word stackCap) (n : Nat) :
    KeepsBut [.stack] s { s with stack := st, sp := n } := fun c hc => by
  have unwritten := Component.same_refl s c
  cases c with
  | stack => exact absurd (.head _) hc
  | _ => exact unwritten

theorem keepsBut_mem (s : State) (m : Memory) : KeepsBut [.mem] s { s with mem := m } := fun c hc => by
  have unwritten := Component.same_refl s c
  cases c with
  | mem => exact absurd (.head _) hc
  | _ => exact unwritten

theorem keepsBut_display (s : State) (d : Display) : KeepsBut [.display] s { s with display := d } := fun c hc => by
  have unwritten := Component.same_refl s c
  cases c with
  | display => exact absurd (.head _) hc
  | _ => exact unwritten

theorem keepsBut_keyWait (s : State) (kw : KeyWait) : KeepsBut [.keyWait] s { s with kw := kw } := fun c hc => by
  have unwritten := Component.same_refl s c
  cases c with
  | keyWait => exact absurd (.head _) hc
  | _ => exact unwritten

theorem keepsBut_draws (s : State) (n : Nat) : KeepsBut [.draws] s { s with draws := n } := fun c hc => by
  have unwritten := Component.same_refl s c
  cases c with
  | draws => exact absurd (.head _) hc
  | _ => exact unwritten

theorem keepsBut_diag (s : State) (d : Diagnostic) : KeepsBut [.diag] s (s.report d) := fun c hc => by
  have unwritten := Component.same_refl s c
  cases c with
  | diag => exact absurd (.head _) hc
  | _ => exact unwritten

theorem keepsBut_skipIf (s : State) (c : Bool) : KeepsBut [.pc] s (s.skipIf c) := by
  rw [s.skipIf_eq c]
  exact keepsBut_pc s _

theorem keepsBut_setRegLogic (s : State) (x : Reg) (b : Byte) : KeepsBut [.regs] s (s.setRegLogic x b) := by
  rw [s.setRegLogic_eq x b]
  exact keepsBut_regs s _

/-- The result is a next state that agrees with `s` outside the list. -/
def AnswersWithin (cs : List Component) (s : State) (r : Result) : Prop := ∃ t, r = .next t ∧ KeepsBut cs s t

theorem callTo_answersWithin (target : Word) (s : State) :
    AnswersWithin [.pc, .stack, .diag] s (callTo target s) := by
  obtain ⟨-, e⟩ | ⟨-, e⟩ := callTo_cases s target
  · exact ⟨_, e, (keepsBut_diag s _).mono (by simp)⟩
  · exact ⟨_, e, ((keepsBut_pc s target).trans (keepsBut_stack _ _ _)).mono (by simp)⟩

theorem execRet_answersWithin (s : State) : AnswersWithin [.pc, .stack, .diag] s (execRet s) := by
  obtain ⟨-, e⟩ | ⟨-, e⟩ := execRet_cases s
  · exact ⟨_, e, (keepsBut_diag s _).mono (by simp)⟩
  · exact ⟨_, e, ((keepsBut_pc s (s.stack[s.sp - 1]?.getD 0)).trans (keepsBut_stack _ _ _)).mono (by simp)⟩

theorem execLdVxK_answersWithin (x : Reg) (s : State) :
    AnswersWithin [.regs, .pc, .keyWait] s (execLdVxK x s) := by
  unfold execLdVxK
  split
  · exact ⟨_, rfl, ((keepsBut_pc s (s.pc - 2)).trans (keepsBut_keyWait _ _)).mono (by simp)⟩
  · exact ⟨_, rfl, (keepsBut_pc s _).mono (by simp)⟩
  · exact ⟨_, rfl, (keepsBut_pc s _).mono (by simp)⟩
  · exact ⟨_, rfl, ((keepsBut_keyWait s _).trans (keepsBut_regs _ _)).mono (by simp)⟩

/-- An instruction that raises no fault answers a next state and writes its row of the access matrix only. -/
theorem exec_answersWithin_writes {i : Instr} (h : raisedFault i s = none) :
    AnswersWithin (writes i) s (exec i s) := by
  cases i with
  | cls => exact ⟨_, rfl, keepsBut_display s _⟩
  | ret => exact execRet_answersWithin s
  | sys nnn => exact callTo_answersWithin _ s
  | call nnn => exact callTo_answersWithin _ s
  | jp nnn => exact ⟨_, rfl, keepsBut_pc s _⟩
  | jpo nnn =>
    obtain ⟨hc, -⟩ | ⟨-, a, e⟩ := execJpo_cases nnn s
    · rw [raisedFault, if_pos hc] at h
      cases h
    · exact ⟨_, e, keepsBut_pc s a⟩
  | seImm x nn => exact ⟨_, rfl, keepsBut_skipIf s _⟩
  | sneImm x nn => exact ⟨_, rfl, keepsBut_skipIf s _⟩
  | seReg x y => exact ⟨_, rfl, keepsBut_skipIf s _⟩
  | sneReg x y => exact ⟨_, rfl, keepsBut_skipIf s _⟩
  | skp x => exact ⟨_, rfl, keepsBut_skipIf s _⟩
  | sknp x => exact ⟨_, rfl, keepsBut_skipIf s _⟩
  | ldImm x nn => exact ⟨_, rfl, keepsBut_regs s _⟩
  | addImm x nn => exact ⟨_, rfl, keepsBut_regs s _⟩
  | ldReg x y => exact ⟨_, rfl, keepsBut_regs s _⟩
  | orReg x y => exact ⟨_, rfl, keepsBut_setRegLogic s x _⟩
  | andReg x y => exact ⟨_, rfl, keepsBut_setRegLogic s x _⟩
  | xorReg x y => exact ⟨_, rfl, keepsBut_setRegLogic s x _⟩
  | addReg x y => exact ⟨_, rfl, keepsBut_regs s _⟩
  | sub x y => exact ⟨_, rfl, keepsBut_regs s _⟩
  | shr x y => exact ⟨_, rfl, keepsBut_regs s _⟩
  | subn x y => exact ⟨_, rfl, keepsBut_regs s _⟩
  | shl x y => exact ⟨_, rfl, keepsBut_regs s _⟩
  | ldVxDt x => exact ⟨_, rfl, keepsBut_regs s _⟩
  | ldI nnn => exact ⟨_, rfl, keepsBut_index s _⟩
  | addI x => exact ⟨_, rfl, keepsBut_index s _⟩
  | ldF x => exact ⟨_, rfl, keepsBut_index s _⟩
  | rnd x nn => exact ⟨_, rfl, ((keepsBut_draws s _).trans (keepsBut_regs _ _)).mono (by simp [writes])⟩
  | drw x y n =>
    exact ⟨_, accessFromI_of_boundsFault_none h,
      ((keepsBut_display s _).trans (keepsBut_regs _ _)).mono (by simp [writes])⟩
  | ldVxK x => exact execLdVxK_answersWithin x s
  | ldDt x => exact ⟨_, rfl, keepsBut_delay s _⟩
  | ldSt x => exact ⟨_, rfl, keepsBut_sound s _⟩
  | ldB x => exact ⟨_, accessFromI_of_boundsFault_none h, keepsBut_mem s _⟩
  | stRegs x =>
    exact ⟨_, accessFromI_of_boundsFault_none h, (keepsBut_mem s _).trans (keepsBut_index _ _)⟩
  | ldRegs x =>
    exact ⟨_, accessFromI_of_boundsFault_none h, (keepsBut_regs s _).trans (keepsBut_index { s with v := _ } _)⟩
  | unsupported w => exact ⟨_, rfl, keepsBut_diag s _⟩

theorem exec_keepsBut_writes {i : Instr} (h : raisedFault i s = none) (he : exec i s = .next t) :
    KeepsBut (writes i) s t := by
  obtain ⟨t', e, hk⟩ := exec_answersWithin_writes h
  obtain rfl := nextState_unique e he
  exact hk

/-- Settles O20: the frame of each instruction, from the frames of the updates it makes. -/
theorem instructionsWriteOnlyTheirMatrixRow : Obligations.InstructionsWriteOnlyTheirMatrixRow :=
  fun _ _ _ h he => exec_keepsBut_writes h he

end Sys2Proof.Safety
end

section
/-! SUPPORT. A pass of a running core: what it does, and that its cadences do not touch the clock sample. -/

namespace Sys2Proof.Machine

@[simp] theorem State.beforeCpu_clock (s : State) (p : PassInput) : (s.beforeCpu p).clock = s.clock := by
  rw [s.beforeCpu_eq p]

/-- A pass of a running core ends the session after its edges, or goes on to the CPU cadence. -/
theorem runningPass_cases (p : PassInput) (s : State) :
    (p.quit = true ∧ runningPass p s = .next { s.deliverEdges p.edges with status := .quit }) ∨
    (p.quit = false ∧ runningPass p s = cpuCadence s.clock (s.beforeCpu p)) := by
  unfold runningPass
  cases p.quit with
  | true => exact .inl ⟨rfl, rfl⟩
  | false => exact .inr ⟨rfl, rfl⟩

end Sys2Proof.Machine
end

section
/-! SUPPORT. The state invariant over each part of a step: what an instruction, a cycle, a pass and a reset keep, and
the invariants of the reset state (10_state.md R30, 60_exceptions.md R225, R227). -/

namespace Sys2Proof.Safety

open Sys2Proof.Machine

variable {s t : State}

/-! ## An instruction -/

theorem machine_notMem_writes (i : Instr) : .machine ∉ writes i := by
  cases i <;> simp [writes]

/-- Every instruction keeps memory canonical: FX33 and FX55 store inside the address space, the others nowhere. -/
theorem exec_keeps_wf {i : Instr} (hwf : Memory.wf s.mem = true) (h : raisedFault i s = none)
    (he : exec i s = .next t) : Memory.wf t.mem = true := by
  have unwritten (hm : .mem ∉ writes i) : Memory.wf t.mem = true := by
    have hmem : t.mem = s.mem := exec_keepsBut_writes h he .mem hm
    rwa [hmem]
  cases i with
  | ldB x =>
    obtain rfl := nextState_unique (accessFromI_of_boundsFault_none h) he
    have hin := boundsFault_eq_none h
    exact Memory.wf_writeRange hwf (by simp [decimalDigits, memSize]; omega)
  | stRegs x =>
    obtain rfl := nextState_unique (accessFromI_of_boundsFault_none h) he
    have hin := boundsFault_eq_none h
    exact Memory.wf_writeRange hwf (by simp [State.regsUpTo, memSize]; omega)
  | _ => exact unwritten (by simp [writes])

theorem callTo_keeps_depth {target : Word} (hsp : s.sp ≤ 255) (he : callTo target s = .next t) : t.sp ≤ 255 := by
  obtain ⟨-, e⟩ | ⟨hroom, e⟩ := callTo_cases s target
  · obtain rfl := nextState_unique e he
    exact hsp
  · obtain rfl := nextState_unique e he
    exact hroom

theorem execRet_keeps_depth (hsp : s.sp ≤ 255) (he : execRet s = .next t) : t.sp ≤ 255 := by
  obtain ⟨-, e⟩ | ⟨-, e⟩ := execRet_cases s
  · obtain rfl := nextState_unique e he
    exact hsp
  · obtain rfl := nextState_unique e he
    exact (Nat.sub_le _ _).trans hsp

/-- Every instruction keeps the call-stack depth in 0..255: CALL, SYS and RET check it, the others do not touch it. -/
theorem exec_keeps_depth {i : Instr} (hsp : s.sp ≤ 255) (h : raisedFault i s = none) (he : exec i s = .next t) :
    t.sp ≤ 255 := by
  have unwritten (hm : .stack ∉ writes i) : t.sp ≤ 255 := by
    obtain ⟨-, hst⟩ : t.stack = s.stack ∧ t.sp = s.sp := exec_keepsBut_writes h he .stack hm
    rwa [hst]
  cases i with
  | ret => exact execRet_keeps_depth hsp he
  | sys nnn => exact callTo_keeps_depth hsp he
  | call nnn => exact callTo_keeps_depth hsp he
  | _ => exact unwritten (by simp [writes])

theorem StateInv.takeFault (h : StateInv s) (a : Word) (f : Fault) : StateInv (s.takeFault a f) := { h with }

theorem StateInv.exec {i : Instr} (h : StateInv s) (he : exec i s = .next t) : StateInv t := by
  cases hf : raisedFault i s with
  | some f =>
    obtain rfl := nextState_unique (exec_eq_raise hf) he
    exact h.takeFault _ _
  | none =>
    obtain ⟨-, -, htimer, hframe, hcpu, -, hcfg, hclock, -, -⟩ :=
      exec_keepsBut_writes hf he .machine (machine_notMem_writes i)
    exact
      { memory := exec_keeps_wf h.memory hf he
        depth := exec_keeps_depth h.depth hf he
        timer := by simpa only [htimer, hclock] using h.timer
        frame := by simpa only [hframe, hclock] using h.frame
        cpu := by simpa only [hcpu, hclock] using h.cpu
        timerPeriod := by simpa only [hcfg] using h.timerPeriod
        framePeriod := by simpa only [hcfg] using h.framePeriod
        cpuPeriod := by simpa only [hcfg] using h.cpuPeriod }

/-! ## A pass -/

theorem StateInv.cycle (h : StateInv s) (he : cycle s = .next t) : StateInv t := by
  obtain ⟨f, -, e⟩ | ⟨w, u, hu, e⟩ := cycle_cases s
  · obtain rfl := nextState_unique e he
    exact { h with }
  · obtain ⟨-, e'⟩ | ⟨-, e'⟩ := fetch_cases s
    · rw [e'] at hu
      cases hu
    · obtain ⟨-, rfl⟩ := Prod.mk.inj (Except.ok.inj (e'.symm.trans hu))
      exact StateInv.exec (s := s.setPc (s.pc + 2)) { h with } (e.symm.trans he)

/-- The clock sample of a pass or a reset does not go backwards, so the timestamps stay behind it. -/
theorem StateInv.advanceClock (h : StateInv s) (n : Nat) (inputs : List Input) :
    StateInv { s with inputs := inputs, clock := s.clock + n } :=
  { h with
    timer := h.timer.trans (Nat.le_add_right _ _)
    frame := h.frame.trans (Nat.le_add_right _ _)
    cpu := h.cpu.trans (Nat.le_add_right _ _) }

theorem StateInv.deliverEdges (h : StateInv s) (edges : List KeyEdge) : StateInv (s.deliverEdges edges) := by
  rw [s.deliverEdges_eq edges]
  exact { h with }

/-- A timestamp that is kept or becomes the clock sample does not run ahead of it. -/
theorem stamp_le {due : Prop} [Decidable due] {last now : Nat} (h : last ≤ now) :
    (if due then now else last) ≤ now := by
  split
  · exact Nat.le_refl _
  · exact h

theorem StateInv.beforeCpu (h : StateInv s) (p : PassInput) : StateInv (s.beforeCpu p) := by
  rw [s.beforeCpu_eq p]
  exact
    { h with
      timer := stamp_le h.timer
      frame := stamp_le h.frame }

theorem StateInv.cpuCadence (h : StateInv s) (he : cpuCadence s.clock s = .next t) : StateInv t := by
  obtain ⟨-, e⟩ | ⟨period, -, ⟨-, e⟩ | ⟨-, e⟩⟩ := cpuCadence_cases s s.clock
  · exact h.cycle (e.symm.trans he)
  · exact StateInv.cycle (s := { s with lastCpu := s.clock }) { h with cpu := Nat.le_refl _ } (e.symm.trans he)
  · obtain rfl := nextState_unique e he
    exact h

theorem StateInv.runningPass {p : PassInput} (h : StateInv s) (he : runningPass p s = .next t) : StateInv t := by
  obtain ⟨-, e⟩ | ⟨-, e⟩ := runningPass_cases p s
  · obtain rfl := nextState_unique e he
    exact { h.deliverEdges p.edges with }
  · rw [← State.beforeCpu_clock s p] at e
    exact (h.beforeCpu p).cpuCadence (e.symm.trans he)

/-! ## A reset -/

/-- Every period of the configuration is at least one clock unit (60_exceptions.md R227). -/
structure PeriodsPositive (c : SessionConfig) : Prop where
  timer : 1 ≤ c.timerPeriod
  frame : 1 ≤ c.framePeriod
  cpu   : ∀ p, c.cpuPeriod = some p → 1 ≤ p

theorem one_le_periodOf (clockHz : Nat) (rate : Int) : 1 ≤ periodOf clockHz rate := Nat.le_max_left _ _

theorem sessionConfig_periodsPositive (d : Dialect) (f : ConfigFields) (p : SessionParams) :
    PeriodsPositive (sessionConfig d f p) where
  timer := by
    unfold sessionConfig
    cases p.timerPeriod with
    | none => exact one_le_periodOf _ _
    | some n => exact Nat.le_max_left _ _
  frame := one_le_periodOf _ _
  cpu n hn := by
    simp only [sessionConfig] at hn
    split at hn
    · obtain rfl := Option.some.inj hn
      exact one_le_periodOf _ _
    · cases hn

theorem openSession_periodsPositive {f : ConfigFields} {p : SessionParams} {c : SessionConfig}
    (h : openSession f p = .ok c) : PeriodsPositive c := by
  unfold openSession at h
  split at h
  · cases h
  · split at h
    · cases h
    · split at h
      · cases h
      · obtain rfl := Except.ok.inj h
        exact sessionConfig_periodsPositive _ f p

theorem StateInv.initial {c : SessionConfig} (h : PeriodsPositive c) (now : Nat) : StateInv (State.initial c now) where
  memory := rfl
  depth := Nat.zero_le _
  timer := Nat.le_refl _
  frame := Nat.le_refl _
  cpu := Nat.le_refl _
  timerPeriod := h.timer
  framePeriod := h.frame
  cpuPeriod := h.cpu

/-- The font and the at most 3583 bytes of the ROM lie inside the address space. -/
theorem wf_loadRom_installFontTable (rom : List Byte) (font : Vector Byte 80) :
    Memory.wf (loadRom rom (installFontTable font [])) = true := by
  have hfont : Memory.wf (installFontTable font []) = true := Memory.wf_writeRange rfl (by simp [fontBase, memSize])
  exact Memory.wf_writeRange hfont (by simp [romMax, progBase, memSize]; omega)

theorem StateInv.resetSession (h : StateInv s) (r : ResetRequest) : StateInv (s.resetSession r) := by
  unfold State.resetSession
  cases ho : openSession r.fields r.params with
  | error field => exact { h.advanceClock r.advance s.inputs with }
  | ok c =>
    exact
      { StateInv.initial (openSession_periodsPositive ho) (s.clock + r.advance) with
        memory := wf_loadRom_installFontTable r.rom c.font }

/-! ## The statements -/

/-- Settles O22: each kind of step keeps the invariant, passes of a running core by `StateInv.runningPass`. -/
theorem stepKeepsTheStateInvariant : Obligations.StepKeepsTheStateInvariant := by
  intro s t h he
  obtain ⟨p, rest, -, ⟨-, e⟩ | ⟨-, e⟩⟩ | ⟨r, rest, -, e⟩ := step_cases s
  · exact (h.advanceClock p.advance rest).runningPass (e.symm.trans he)
  · obtain rfl := nextState_unique e he
    exact h.advanceClock p.advance rest
  · obtain rfl := nextState_unique e he
    exact StateInv.resetSession (s := { s with inputs := rest }) { h with } r

/-- Settles O24: the session of the reset state has positive periods, and its KW is Idle. -/
theorem resetMeetsTheInvariants : Obligations.ResetMeetsTheInvariants :=
  ⟨StateInv.initial (sessionConfig_periodsPositive _ _ _) 0, fun hkw => absurd rfl hkw⟩

end Sys2Proof.Safety
end

section
/-! SUPPORT. The reset state: an unlisted address reads as the default FONT or zero (20_memory.md R57, R58). -/

namespace Sys2Proof.Machine

theorem Memory.unlisted_font (k : Nat) : Memory.unlisted (0x50 + k) = defaultFont.toList.getD k 0 := by
  simp [Memory.unlisted, fontBase]

theorem Memory.unlisted_outside_font {a : Nat} (h : ¬(0x50 ≤ a ∧ a < 0xA0)) : Memory.unlisted a = 0 := by
  unfold Memory.unlisted
  split
  next hbase =>
    have hlen : defaultFont.toList.length ≤ a - fontBase := by
      simp only [Vector.length_toList, fontBase] at hbase ⊢
      omega
    rw [List.getD_eq_default _ _ hlen]
  next => rfl

theorem State.readByte_reset (a : Nat) : State.reset.readByte a = Memory.unlisted a := rfl

theorem State.reg_reset (r : Reg) : State.reset.reg r = 0 := Vector.getElem_replicate _

theorem State.pressed_reset (v : Byte) : State.reset.pressed v = false := by
  unfold State.pressed
  split
  · exact Vector.getElem_replicate _
  · rfl

end Sys2Proof.Machine

namespace Sys2Proof.Safety

open Sys2Proof.Machine

/-- Settles O25: registers, keypad, display and memory by their lemmas, the other fields as State.initial sets them. -/
theorem resetStateHoldsTheSpecsValues : Obligations.ResetStateHoldsTheSpecsValues := by
  refine ⟨State.reg_reset, rfl, rfl, rfl, rfl, rfl, Display.pixel_clear, State.pressed_reset, rfl, rfl, rfl, rfl, rfl,
    rfl, ?_, ?_⟩
  · simp only [State.readByte_reset, Memory.unlisted_font]
    decide
  · intro a _ hout
    rw [State.readByte_reset, Memory.unlisted_outside_font hout]

end Sys2Proof.Safety
end

section
/-! SUPPORT. The call stack is last in, first out (10_state.md R31, R32). -/

namespace Sys2Proof.Safety

open Sys2Proof.Machine

/-- Pop, which must give the address `a`. -/
def popExpecting (s : State) (a : Word) : Option State :=
  match s.pop with
  | some (b, t) => if b = a then some t else none
  | none => none

theorem popExpecting_eq_some {s t : State} {a : Word} (h : s.pop = some (a, t)) : popExpecting s a = some t := by
  simp [popExpecting, h]

/-- Pushes within capacity succeed, keep the entries below the first of them, and are undone by pops that give the
addresses back in reverse order. -/
theorem foldlM_push_pop (addrs : List Word) (s : State) (hcap : s.sp + addrs.length ≤ 255) :
    ∃ t, addrs.foldlM State.push s = some t ∧ t.sp = s.sp + addrs.length ∧
      (∀ j, j < s.sp → t.stack[j]? = s.stack[j]?) ∧
      addrs.reverse.foldlM popExpecting t = some { t with sp := s.sp } := by
  induction addrs generalizing s with
  | nil => exact ⟨s, rfl, rfl, fun _ _ => rfl, rfl⟩
  | cons a rest ih =>
    rw [List.length_cons] at hcap ⊢
    obtain ⟨hfull, -⟩ | ⟨hroom, hpush⟩ := s.push_cases a
    · exact absurd (show 255 ≤ s.sp from hfull) (by omega)
    · obtain ⟨t, hpushes, hsp, hkept, hpops⟩ :=
        ih { s with stack := s.stack.setIfInBounds s.sp a, sp := s.sp + 1 } (by dsimp only; omega)
      have htop : t.stack[s.sp]? = some a := by
        rw [hkept s.sp (Nat.lt_succ_self _)]
        simp [hroom]
      have hlast : popExpecting { t with sp := s.sp + 1 } a = some { t with sp := s.sp } :=
        popExpecting_eq_some (by simp [State.pop, htop])
      refine ⟨t, ?_, ?_, fun j hj => ?_, ?_⟩
      · rw [List.foldlM_cons, hpush]
        exact hpushes
      · rw [hsp]
        dsimp only
        omega
      · rw [hkept j (Nat.lt_succ_of_lt hj)]
        simp [Nat.ne_of_gt hj]
      · rw [List.reverse_cons, List.foldlM_append, hpops]
        simpa using hlast

/-- Settles O39, by induction on the pushed addresses. -/
theorem callStackIsLastInFirstOut : Obligations.CallStackIsLastInFirstOut := by
  intro addrs s hcap
  obtain ⟨t, hpushes, hsp, -, hpops⟩ := foldlM_push_pop addrs s hcap
  exact ⟨t, hpushes, hsp, _, hpops, rfl⟩

end Sys2Proof.Safety
end

section
/-! The quirk table (10_state.md R38). -/

namespace Sys2Proof.Safety

/-- Settles O7: the twelve entries of the table. -/
theorem quirkTableIsTheSpecs : Obligations.QuirkTableIsTheSpecs :=
  ⟨⟨rfl, rfl, rfl⟩, ⟨rfl, rfl, rfl⟩, ⟨rfl, rfl, rfl⟩, ⟨rfl, rfl, rfl⟩⟩

end Sys2Proof.Safety
end

section
/-! SUPPORT. The canonical form entry by entry, and that it is determined by what memory reads as (20_memory.md R50,
R56, R61). -/

namespace Sys2Proof.Machine.Memory

variable {m n rest : Memory} {lo lo' k : Nat} {b : Byte}

theorem wfFrom_cons : wfFrom lo ((k, b) :: rest) = true ↔
    lo ≤ k ∧ k < memSize ∧ b ≠ unlisted k ∧ wfFrom (k + 1) rest = true := by
  simp [wfFrom, and_assoc]

/-- The first entry is seen by a read, so no canonical memory that reads the same starts above it. -/
theorem le_of_read_eq (hm : wfFrom lo ((k, b) :: rest) = true) (hn : wfFrom lo' n = true)
    (h : ∀ a, read ((k, b) :: rest) a = n.read a) : lo' ≤ k := by
  obtain ⟨-, -, hlisted, -⟩ := wfFrom_cons.1 hm
  by_contra hk
  have hb : read ((k, b) :: rest) k = b := if_pos rfl
  exact hlisted (by rw [← hb, h k, read_of_lt hn (by omega)])

/-- Where two memories start at one address and read the same, so do their first bytes and their rests. -/
theorem read_tail_eq {c : Byte} {rest' : Memory} (hm : wfFrom (k + 1) rest = true) (hn : wfFrom (k + 1) rest' = true)
    (h : ∀ a, read ((k, b) :: rest) a = read ((k, c) :: rest') a) : b = c ∧ ∀ a, rest.read a = rest'.read a := by
  refine ⟨by simpa [read] using h k, fun a => ?_⟩
  by_cases ha : a < k + 1
  · rw [read_of_lt hm ha, read_of_lt hn ha]
  · simpa [read, show k ≠ a by omega] using h a

theorem eq_of_read_eq (hm : wfFrom lo m = true) (hn : wfFrom lo' n = true) (h : ∀ a, m.read a = n.read a) : m = n := by
  induction m generalizing lo lo' n with
  | nil =>
    cases n with
    | nil => rfl
    | cons e rest' => exact absurd (le_of_read_eq (lo' := e.1 + 1) hn rfl fun a => (h a).symm) (by omega)
  | cons e rest ih =>
    obtain ⟨k, b⟩ := e
    cases n with
    | nil => exact absurd (le_of_read_eq (lo' := k + 1) hm rfl h) (by omega)
    | cons e' rest' =>
      obtain ⟨k', c⟩ := e'
      obtain ⟨-, hin, hb, hrest⟩ := wfFrom_cons.1 hm
      obtain ⟨-, hin', hc, hrest'⟩ := wfFrom_cons.1 hn
      have hle : k' ≤ k := le_of_read_eq hm (wfFrom_cons.2 ⟨Nat.le_refl k', hin', hc, hrest'⟩) h
      have hge : k ≤ k' := le_of_read_eq hn (wfFrom_cons.2 ⟨Nat.le_refl k, hin, hb, hrest⟩) fun a => (h a).symm
      obtain rfl : k = k' := Nat.le_antisymm hge hle
      obtain ⟨rfl, htail⟩ := read_tail_eq hrest hrest' h
      rw [ih hrest hrest' htail]

end Sys2Proof.Machine.Memory

namespace Sys2Proof.Safety

open Sys2Proof.Machine

/-- Settles O29: the law of one store on a canonical memory. -/
theorem readAfterWrite : Obligations.ReadAfterWrite := fun _ a c b h => Memory.read_write_from h a c b

/-- Settles O30, by induction on the two lists of entries. -/
theorem canonicalMemoriesAreEqual : Obligations.CanonicalMemoriesAreEqual := fun _ _ hm hn h =>
  Memory.eq_of_read_eq hm hn h

/-- Settles O9: the two branches of the fetch, the failing one split at PC = 4095. -/
theorem fetchReadsTheWordAtPc : Obligations.FetchReadsTheWordAtPc := by
  intro s
  obtain ⟨hout, e⟩ | ⟨hin, e⟩ := fetch_cases s
  · refine ⟨fun h => absurd h (by omega), fun h => ?_, fun h => ?_⟩
    · rw [e, if_neg (by omega), h]
    · rw [e, if_pos h]
  · refine ⟨fun _ => ⟨_, _, e, toNat_wordOfBytes _ _, rfl, ?_⟩, fun h => absurd hin (by omega),
      fun h => absurd hin (by omega)⟩
    simp

end Sys2Proof.Safety
end

section
/-! SUPPORT. What FX33 and FX55 leave in memory, and what a fetch then reads (20_memory.md R64, 42_index_memory.md R143,
R144). -/

namespace Sys2Proof.Machine

variable {s t : State} {x : Reg}

theorem State.regsUpTo_eq_map (s : State) (x : Reg) :
    s.regsUpTo x = (List.range (x.val + 1)).map fun k => s.reg (Fin.ofNat 16 k) := by
  apply List.ext_getElem
  · simp [State.regsUpTo]
  · intro k hk _
    have hk16 : k < 16 := by
      simp only [State.regsUpTo, List.length_take, Vector.length_toList] at hk
      omega
    simp [State.regsUpTo, State.reg, Nat.mod_eq_of_lt hk16]

/-- The decimal digits are the only bytes with the values of the hundreds, tens and ones. -/
theorem eq_decimalDigits {v : Byte} {bytes : List Byte}
    (h : bytes.map BitVec.toNat = [v.toNat / 100, v.toNat / 10 % 10, v.toNat % 10]) : bytes = decimalDigits v := by
  apply List.map_injective_iff.2 fun _ _ => BitVec.eq_of_toNat_eq
  rw [h]
  have := v.isLt
  simp [decimalDigits]
  omega

/-- The bounds check lets an access inside the address space go on. -/
theorem accessFromI_of_le {i : Instr} {count : Nat} {go : Result} (h : s.i.toNat + count ≤ 4096) :
    accessFromI i count s go = go := by
  obtain ⟨-, hout, -⟩ | ⟨-, e⟩ := accessFromI_cases s i count go
  · omega
  · exact e

/-- FX33 inside the address space stores the three digits and keeps PC. -/
theorem exec_ldB_stores (hin : s.i.toNat + (decimalDigits (s.reg x)).length ≤ 4096) (he : exec (.ldB x) s = .next t) :
    t.mem = s.mem.writeRange s.i.toNat (decimalDigits (s.reg x)) ∧ t.pc = s.pc := by
  obtain rfl := Host.Outcome.next.inj ((accessFromI_of_le hin).symm.trans he)
  exact ⟨rfl, rfl⟩

/-- FX55 inside the address space stores V0 to V`x` and keeps PC. -/
theorem exec_stRegs_stores (hin : s.i.toNat + (s.regsUpTo x).length ≤ 4096) (he : exec (.stRegs x) s = .next t) :
    t.mem = s.mem.writeRange s.i.toNat (s.regsUpTo x) ∧ t.pc = s.pc := by
  have hcount : s.i.toNat + (x.val + 1) ≤ 4096 := by simpa [State.regsUpTo_eq_map] using hin
  obtain rfl := Host.Outcome.next.inj ((accessFromI_of_le hcount).symm.trans he)
  exact ⟨rfl, rfl⟩

end Sys2Proof.Machine

namespace Sys2Proof.Safety

open Sys2Proof.Machine

/-- Settles O31: both instructions store `bytes` and keep PC, so the fetch reads through that store. -/
theorem storedBytesAreFetched : Obligations.StoredBytesAreFetched := by
  intro s t x i bytes hwf hinstr hin hpc he
  have hstore : t.mem = s.mem.writeRange s.i.toNat bytes ∧ t.pc = s.pc := by
    obtain ⟨rfl, hbytes⟩ | ⟨rfl, hdigits⟩ := hinstr
    · obtain rfl : bytes = s.regsUpTo x := hbytes.trans (s.regsUpTo_eq_map x).symm
      exact exec_stRegs_stores hin he
    · obtain rfl := eq_decimalDigits hdigits
      exact exec_ldB_stores hin he
  obtain ⟨hmem, hkept⟩ := hstore
  have hread (a : Nat) : t.readByte a =
      if s.i.toNat ≤ a ∧ a < s.i.toNat + bytes.length then bytes.getD (a - s.i.toNat) 0 else s.readByte a := by
    rw [State.readByte, hmem, Memory.read_writeRange hwf hin]
    rfl
  obtain ⟨hout, -⟩ | ⟨-, e⟩ := fetch_cases t
  · rw [hkept] at hout
    omega
  · exact ⟨_, _, e, by rw [toNat_wordOfBytes, hread, hread, hkept]⟩

end Sys2Proof.Safety
end

section
/-! SUPPORT. The step that takes an accepted reset, and memory after it (20_memory.md R57 to R59,
70_reset_and_hazards.md R240, R241). -/

namespace Sys2Proof.Machine

theorem step_reset {s : State} {r : ResetRequest} {rest : List Input} (h : s.inputs = .reset r :: rest) :
    step s = .next (State.resetSession { s with inputs := rest } r) := by
  simp [step, runNextInput, h]

theorem wf_installFontTable (font : Vector Byte 80) : Memory.wf (installFontTable font []) = true :=
  Memory.wf_writeRange rfl (by simp [fontBase, memSize])

theorem read_installFontTable (font : Vector Byte 80) (a : Nat) : (installFontTable font []).read a =
    if 0x50 ≤ a ∧ a < 0xA0 then font.toList.getD (a - 0x50) 0 else 0 := by
  rw [installFontTable, Memory.read_writeRange rfl (by simp [fontBase, memSize])]
  simp only [Vector.length_toList]
  split
  · rfl
  next hout => exact Memory.unlisted_outside_font hout

/-- The at most 3583 bytes of the ROM are read from 0x200 up; elsewhere memory reads as before. -/
theorem read_loadRom {m : Memory} (h : m.wf = true) (rom : List Byte) (a : Nat) : (loadRom rom m).read a =
    if 0x200 ≤ a ∧ a < 0x200 + min rom.length 3583 then (rom.take 3583).getD (a - 0x200) 0 else m.read a := by
  rw [loadRom, Memory.read_writeRange h (by simp [romMax, progBase, memSize]; omega), List.length_take,
    Nat.min_comm]
  rfl

end Sys2Proof.Machine

namespace Sys2Proof.Safety

open Sys2Proof.Machine

theorem dialectOfMode_of_accepts {f : ConfigFields} {d : Dialect} (h : Accepts f d) :
    dialectOfMode f.chipMode = some d := by
  obtain ⟨⟨hm, rfl⟩ | ⟨hm, rfl⟩ | ⟨hm, rfl⟩, -, -⟩ := h <;> rw [hm] <;> rfl

/-- The check of R241 opens a session on exactly the configuration that the fields and parameters give. -/
theorem openSession_of_accepts {f : ConfigFields} {d : Dialect} (h : Accepts f d) (p : SessionParams) :
    openSession f p = .ok (sessionConfig d f p) := by
  have hmode := dialectOfMode_of_accepts h
  obtain ⟨-, hcpu, hframe⟩ := h
  simp only [openSession, hmode]
  rw [if_neg (by omega), if_neg (by omega)]

theorem resetSession_of_accepts {r : ResetRequest} {d : Dialect} (h : Accepts r.fields d) (s : State) :
    s.resetSession r =
      { State.initial (sessionConfig d r.fields r.params) (s.clock + r.advance) with
        mem := loadRom r.rom (installFontTable r.params.font []), inputs := s.inputs, draws := s.draws,
        diag := romDiagnostics r.rom } := by
  rw [State.resetSession, openSession_of_accepts h]
  rfl

/-- The ROM is loaded above the font, so both stand in memory, and zeros elsewhere. -/
theorem holdsFontAndRom_of_mem_eq {font : Vector Byte 80} {rom : List Byte} {t : State}
    (h : t.mem = loadRom rom (installFontTable font [])) : HoldsFontAndRom font rom t := by
  have hread (a : Nat) : t.readByte a =
      if 0x200 ≤ a ∧ a < 0x200 + min rom.length 3583 then (rom.take 3583).getD (a - 0x200) 0
      else if 0x50 ≤ a ∧ a < 0xA0 then font.toList.getD (a - 0x50) 0 else 0 := by
    rw [State.readByte, h, read_loadRom (wf_installFontTable font), read_installFontTable]
  refine ⟨fun k hk => ?_, fun k hk hmax => ?_, fun a _ hfont hrom => ?_⟩
  · rw [hread, if_neg (by omega), if_pos (by omega)]
    simp [hk]
  · rw [hread, if_pos (by omega)]
    simp [hmax, hk]
  · rw [hread, if_neg hrom, if_neg hfont]

/-- Settles O28: memory and diagnostics of the session that the reset opens. -/
theorem resetLoadsFontAndRom : Obligations.ResetLoadsFontAndRom := by
  intro s r rest d hinputs haccepts
  have hstep := step_reset hinputs
  rw [resetSession_of_accepts haccepts] at hstep
  exact ⟨_, hstep, holdsFontAndRom_of_mem_eq rfl, rfl⟩

end Sys2Proof.Safety
end

section
/-! SUPPORT. Which words the decoder answers with UNSUPPORTED: those whose top nibble has secondary keys and whose own
key is not listed (30_encoding.md R78, R79, R82, R83). -/

namespace Sys2Proof.Safety

variable {w : Word}

/-- The low nibbles listed in the 8 group (30_encoding.md R83). -/
def listedKeys8 : List (Fin 16) := [0, 1, 2, 3, 4, 5, 6, 7, 14]

/-- The low bytes listed in the E group (30_encoding.md R83). -/
def listedKeysE : List Byte := [0x9E, 0xA1]

/-- The low bytes listed in the F group (30_encoding.md R83). -/
def listedKeysF : List Byte := [0x07, 0x0A, 0x15, 0x18, 0x1E, 0x29, 0x33, 0x55, 0x65]

/-- The word's top nibble has secondary keys, and the word's key is none of those listed. -/
def HasUnlistedKey (w : Word) : Prop :=
  (fieldOp w ∈ [0x5, 0x9] ∧ fieldN w ≠ 0) ∨ (fieldOp w = 0x8 ∧ fieldN w ∉ listedKeys8) ∨
  (fieldOp w = 0xE ∧ fieldNN w ∉ listedKeysE) ∨ (fieldOp w = 0xF ∧ fieldNN w ∉ listedKeysF)

/-! ## The decoder's branches -/

theorem decodeGroup8_eq_unsupported_iff : decodeGroup8 w = .unsupported w ↔ fieldN w ∉ listedKeys8 := by
  unfold decodeGroup8
  generalize fieldN w = n
  fin_cases n <;> simp [listedKeys8]

theorem decodeGroupE_eq_unsupported_iff : decodeGroupE w = .unsupported w ↔ fieldNN w ∉ listedKeysE := by
  unfold decodeGroupE
  split_ifs <;> simp_all [listedKeysE, bits_7_0, ← BitVec.toNat_inj]

theorem decodeGroupF_eq_unsupported_iff : decodeGroupF w = .unsupported w ↔ fieldNN w ∉ listedKeysF := by
  unfold decodeGroupF
  split_ifs <;> simp_all [listedKeysF, bits_7_0, ← BitVec.toNat_inj]

/-- Only the five groups with secondary keys have an UNSUPPORTED branch. -/
theorem decodeWord_eq_unsupported_iff : decodeWord w = .unsupported w ↔ HasUnlistedKey w := by
  have hop := fieldOp_lt w
  unfold decodeWord HasUnlistedKey
  generalize fieldOp w = op at hop
  interval_cases op <;>
    simp [ite_eq_iff, bits_3_0, decodeGroup8_eq_unsupported_iff, decodeGroupE_eq_unsupported_iff,
      decodeGroupF_eq_unsupported_iff]

/-! ## The table's patterns -/

theorem listedWord_iff : listedWord w = true ↔ ∃ p ∈ listedPatterns, w &&& p.1 = p.2 := by
  simp [listedWord]

theorem listedWord_of_op (h : (0xF000#16, BitVec.ofNat 16 (fieldOp w * 4096)) ∈ listedPatterns) :
    listedWord w = true :=
  listedWord_iff.2 ⟨_, h, (and_op_iff w _ (fieldOp_lt w)).2 rfl⟩

theorem listedWord_of_nibble
    (h : (0xF00F#16, BitVec.ofNat 16 (fieldOp w * 4096 + (fieldN w).val)) ∈ listedPatterns) : listedWord w = true :=
  listedWord_iff.2 ⟨_, h, (and_nib_iff w _ _ (fieldOp_lt w) (fieldN w).isLt).2 ⟨rfl, rfl⟩⟩

theorem listedWord_of_byte
    (h : (0xF0FF#16, BitVec.ofNat 16 (fieldOp w * 4096 + (fieldNN w).toNat)) ∈ listedPatterns) : listedWord w = true :=
  listedWord_iff.2 ⟨_, h, (and_byte_iff w _ _ (fieldOp_lt w) (fieldNN w).isLt).2 ⟨rfl, rfl⟩⟩

theorem op_mem_listedPatterns : ∀ op < 16, op ∉ [0x5, 0x8, 0x9, 0xE, 0xF] →
    (0xF000#16, BitVec.ofNat 16 (op * 4096)) ∈ listedPatterns := by decide

theorem key8_mem_listedPatterns : ∀ n ∈ listedKeys8,
    (0xF00F#16, BitVec.ofNat 16 (0x8 * 4096 + n.val)) ∈ listedPatterns := by decide

theorem keyE_mem_listedPatterns : ∀ nn ∈ listedKeysE,
    (0xF0FF#16, BitVec.ofNat 16 (0xE * 4096 + nn.toNat)) ∈ listedPatterns := by decide

theorem keyF_mem_listedPatterns : ∀ nn ∈ listedKeysF,
    (0xF0FF#16, BitVec.ofNat 16 (0xF * 4096 + nn.toNat)) ∈ listedPatterns := by decide

/-- A word that matches no row lies in a group with secondary keys, or the group's row would match it, and so would the
key's row if its key were listed. -/
theorem hasUnlistedKey_of_unlisted (h : listedWord w = false) : HasUnlistedKey w := by
  have unlisted : ¬listedWord w = true := by simp [h]
  have hgroup : fieldOp w ∈ [0x5, 0x8, 0x9, 0xE, 0xF] := by
    by_contra hout
    exact unlisted (listedWord_of_op (op_mem_listedPatterns _ (fieldOp_lt w) hout))
  simp only [List.mem_cons, List.not_mem_nil, or_false] at hgroup
  obtain hop | hop | hop | hop | hop := hgroup
  · exact .inl ⟨by simp [hop], fun hn => unlisted (listedWord_of_nibble (by rw [hop, hn]; decide))⟩
  · exact .inr (.inl
      ⟨hop, fun hn => unlisted (listedWord_of_nibble (by rw [hop]; exact key8_mem_listedPatterns _ hn))⟩)
  · exact .inl ⟨by simp [hop], fun hn => unlisted (listedWord_of_nibble (by rw [hop, hn]; decide))⟩
  · exact .inr (.inr (.inl
      ⟨hop, fun hnn => unlisted (listedWord_of_byte (by rw [hop]; exact keyE_mem_listedPatterns _ hnn))⟩))
  · exact .inr (.inr (.inr
      ⟨hop, fun hnn => unlisted (listedWord_of_byte (by rw [hop]; exact keyF_mem_listedPatterns _ hnn))⟩))

theorem decodeWord_of_unlisted (h : listedWord w = false) : decodeWord w = .unsupported w :=
  decodeWord_eq_unsupported_iff.2 (hasUnlistedKey_of_unlisted h)

theorem extractLsb'_12_4_eq_iff (op : BitVec 4) : w.extractLsb' 12 4 = op ↔ fieldOp w = op.toNat := by
  rw [← BitVec.toNat_inj, op_eq]

/-- Settles O4: the fields cut from the bits are the decoder's own, and its UNSUPPORTED branches are those listed. -/
theorem unsupportedWordsAreThoseWithUnlistedKeys : Obligations.UnsupportedWordsAreThoseWithUnlistedKeys := by
  intro w
  have hunsupported : isUnsupported w = true ↔ HasUnlistedKey w := by
    rw [isUnsupported, beq_iff_eq, decodeWord_eq_unsupported_iff]
  rw [hunsupported, HasUnlistedKey, nOf_eq, nnOf_eq]
  simp [extractLsb'_12_4_eq_iff, listedKeys8, listedKeysE, listedKeysF]

/-- Settles O38: an unlisted word has an unlisted key, and UNSUPPORTED reports and does nothing else. -/
theorem unsupportedWordOnlyReports : Obligations.UnsupportedWordOnlyReports :=
  ⟨fun _ => decodeWord_of_unlisted, fun _ _ => ⟨_, rfl, rfl, fun _ _ => rfl, fun _ => rfl⟩⟩

/-- Settles O5: each word is decoded. -/
theorem wordsWrittenOutDecode : Obligations.WordsWrittenOutDecode := by
  unfold Obligations.WordsWrittenOutDecode
  decide

end Sys2Proof.Safety
end

section
/-! SUPPORT. Decoding and encoding are inverse to each other (30_encoding.md R70 to R77): an encoded instruction
decodes to itself, and what a row of the opcode table builds from a word that matches it encodes to that word. -/

namespace Sys2Proof.Safety

variable {w : Word} {r : OpcodeRow}

/-! ## Decoding what was encoded -/

/-- Only the words of CLS and RET are taken out of the 0 group (30_encoding.md R81). -/
theorem decodeWord_of_op0 (h : fieldOp w = 0) (hcls : w ≠ 0x00E0) (hret : w ≠ 0x00EE) :
    decodeWord w = .sys (fieldNNN w) := by
  rw [decodeWord, h]
  exact (if_neg hcls).trans (if_neg hret)

theorem decodeWord_layoutNNN_sys {nnn : BitVec 12} (h : (Instr.sys nnn).wf = true) :
    decodeWord (layoutNNN 0 nnn) = .sys nnn := by
  have hfield : fieldNNN (layoutNNN 0 nnn) = nnn := fieldNNN_layoutNNN (by decide) nnn
  simp only [Instr.wf, Bool.and_eq_true, bne_iff_ne] at h
  obtain ⟨hcls, hret⟩ := h
  rw [decodeWord_of_op0 (fieldOp_layoutNNN (by decide) nnn), hfield]
  · exact fun hw => hcls (hfield.symm.trans (congrArg fieldNNN hw))
  · exact fun hw => hret (hfield.symm.trans (congrArg fieldNNN hw))

/-- One case per format of 30_encoding.md R72: the decoder reads back the fields of the layout. -/
theorem decodeWord_encodeWord {i : Instr} (h : i.wf = true) : decodeWord (encodeWord i) = i := by
  cases i with
  | cls | ret => rfl
  | sys nnn => exact decodeWord_layoutNNN_sys h
  | unsupported w => exact decodeWord_of_unlisted (w := w) (by simpa [Instr.wf] using h)
  | jp _ | call _ | ldI _ | jpo _ => simp [encodeWord, decodeWord, fieldOp_layoutNNN, fieldNNN_layoutNNN]
  | seImm _ _ | sneImm _ _ | ldImm _ _ | addImm _ _ | rnd _ _ =>
    simp [encodeWord, decodeWord, fieldOp_layoutXNN, fieldX_layoutXNN, fieldNN_layoutXNN]
  | drw _ _ _ | seReg _ _ | sneReg _ _ =>
    simp [encodeWord, decodeWord, bits_3_0, fieldOp_layoutXYN, fieldX_layoutXYN, fieldY_layoutXYN, fieldN_layoutXYN]
  | ldReg _ _ | orReg _ _ | andReg _ _ | xorReg _ _ | addReg _ _ | sub _ _ | shr _ _ | subn _ _ | shl _ _ =>
    simp [encodeWord, decodeWord, decodeGroup8, fieldOp_layoutXYN, fieldX_layoutXYN, fieldY_layoutXYN,
      fieldN_layoutXYN]
  | skp _ | sknp _ =>
    simp [encodeWord, decodeWord, decodeGroupE, bits_7_0, fieldOp_layoutXNN, fieldX_layoutXNN, fieldNN_layoutXNN]
  | ldVxDt _ | ldVxK _ | ldDt _ | ldSt _ | addI _ | ldF _ | ldB _ | stRegs _ | ldRegs _ =>
    simp [encodeWord, decodeWord, decodeGroupF, bits_7_0, fieldOp_layoutXNN, fieldX_layoutXNN, fieldNN_layoutXNN]

/-- Settles O2: the bytes of a word make the word again, and the word decodes to its instruction. -/
theorem decodeInvertsEncode : Obligations.DecodeInvertsEncode := by
  intro i rest h
  have hword : decode (encode i ++ rest) = .ok (decodeWord (encodeWord i), rest) := by
    simp [encode, bytesOfWord, decode, wordOfBytes_bytesOfWord]
  rw [hword, decodeWord_encodeWord h]

/-! ## Encoding what a row of the table builds -/

theorem eq_of_match {v : Word} (h : w &&& 0xFFFF#16 = v) : v = w := h.symm.trans (and_full_mask w)

theorem layoutNNN_of_match (op : Nat) (h : w &&& 0xF000#16 = BitVec.ofNat 16 (op * 4096))
    (hop : op < 16 := by decide) : layoutNNN op (nnnOf w) = w := by
  have hw := (and_op_iff w op hop).1 h
  apply BitVec.eq_of_toNat_eq
  rw [toNat_layoutNNN hop, nnnOf_eq, toNat_fieldNNN, toNat_eq_nibbles w]
  omega

theorem layoutXNN_of_match (op : Nat) (h : w &&& 0xF000#16 = BitVec.ofNat 16 (op * 4096))
    (hop : op < 16 := by decide) : layoutXNN op (xOf w) (nnOf w) = w := by
  have hw := (and_op_iff w op hop).1 h
  apply BitVec.eq_of_toNat_eq
  rw [toNat_layoutXNN hop, xOf_eq, nnOf_eq, toNat_fieldNN, toNat_eq_nibbles w]
  omega

theorem layoutXYN_of_match (op : Nat) (h : w &&& 0xF000#16 = BitVec.ofNat 16 (op * 4096))
    (hop : op < 16 := by decide) : layoutXYN op (xOf w) (yOf w) (nOf w) = w := by
  have hw := (and_op_iff w op hop).1 h
  apply BitVec.eq_of_toNat_eq
  rw [toNat_layoutXYN hop, xOf_eq, yOf_eq, nOf_eq, toNat_eq_nibbles w]
  omega

theorem layoutXY_of_match (op : Nat) (n : Fin 16) (h : w &&& 0xF00F#16 = BitVec.ofNat 16 (op * 4096 + n.val))
    (hop : op < 16 := by decide) : layoutXYN op (xOf w) (yOf w) n = w := by
  obtain ⟨hw, hn⟩ := (and_nib_iff w op n.val hop n.isLt).1 h
  apply BitVec.eq_of_toNat_eq
  rw [toNat_layoutXYN hop, xOf_eq, yOf_eq, toNat_eq_nibbles w]
  omega

theorem layoutX_of_match (op : Nat) (nn : Byte) (h : w &&& 0xF0FF#16 = BitVec.ofNat 16 (op * 4096 + nn.toNat))
    (hop : op < 16 := by decide) : layoutXNN op (xOf w) nn = w := by
  obtain ⟨hw, hnn⟩ := (and_byte_iff w op nn.toNat hop nn.isLt).1 h
  apply BitVec.eq_of_toNat_eq
  rw [toNat_layoutXNN hop, xOf_eq, ← hnn, toNat_fieldNN, toNat_eq_nibbles w]
  omega

/-- A row loses no bit of a word that matches it: one entry per row, in the order of the table. -/
theorem encodeWord_build (hr : r ∈ opcodeRows) (h : w &&& r.mask = r.pattern) : encodeWord (r.build w) = w := by
  revert r
  simp only [opcodeRows, List.cons_append, List.nil_append, List.forall_mem_cons]
  exact ⟨eq_of_match, eq_of_match, layoutNNN_of_match 0x0, layoutNNN_of_match 0x1, layoutNNN_of_match 0x2,
    layoutXNN_of_match 0x3, layoutXNN_of_match 0x4, layoutXY_of_match 0x5 0x0, layoutXNN_of_match 0x6,
    layoutXNN_of_match 0x7,
    layoutXY_of_match 0x8 0x0, layoutXY_of_match 0x8 0x1, layoutXY_of_match 0x8 0x2, layoutXY_of_match 0x8 0x3,
    layoutXY_of_match 0x8 0x4, layoutXY_of_match 0x8 0x5, layoutXY_of_match 0x8 0x6, layoutXY_of_match 0x8 0x7,
    layoutXY_of_match 0x8 0xE, layoutXY_of_match 0x9 0x0,
    layoutNNN_of_match 0xA, layoutNNN_of_match 0xB, layoutXNN_of_match 0xC, layoutXYN_of_match 0xD,
    layoutX_of_match 0xE 0x9E, layoutX_of_match 0xE 0xA1,
    layoutX_of_match 0xF 0x07, layoutX_of_match 0xF 0x0A, layoutX_of_match 0xF 0x15, layoutX_of_match 0xF 0x18,
    layoutX_of_match 0xF 0x1E, layoutX_of_match 0xF 0x29, layoutX_of_match 0xF 0x33, layoutX_of_match 0xF 0x55,
    layoutX_of_match 0xF 0x65, List.forall_mem_nil _⟩

/-- Only the SYS row can build an ill-formed instruction. -/
theorem wf_build_or_sys (hr : r ∈ opcodeRows) (w : Word) : (r.build w).wf = true ∨ ∃ nnn, r.build w = .sys nnn := by
  revert r
  simp [opcodeRows, Instr.wf]

/-- SYS is ill-formed only with the words of the two rows above it. -/
theorem wf_sys {nnn : BitVec 12} (hcls : encodeWord (.sys nnn) ≠ 0x00E0) (hret : encodeWord (.sys nnn) ≠ 0x00EE) :
    (Instr.sys nnn).wf = true := by
  simp only [Instr.wf, Bool.and_eq_true, bne_iff_ne]
  exact ⟨fun e => hcls (by rw [e]; rfl), fun e => hret (by rw [e]; rfl)⟩

/-- A word that matches a row decodes to what the row builds, where that is well formed. -/
theorem decodeWord_build (hr : r ∈ opcodeRows) (h : w &&& r.mask = r.pattern) (hwf : (r.build w).wf = true) :
    decodeWord w = r.build w :=
  calc decodeWord w = decodeWord (encodeWord (r.build w)) := by rw [encodeWord_build hr h]
    _ = r.build w := decodeWord_encodeWord hwf

/-! ## The first matching row -/

theorem mem_and_match_of_find? (h : opcodeRows.find? (fun r => w &&& r.mask == r.pattern) = some r) :
    r ∈ opcodeRows ∧ w &&& r.mask = r.pattern :=
  ⟨List.mem_of_find?_eq_some h, by simpa using List.find?_some h⟩

/-- The first row that matches a word builds a well-formed instruction. -/
theorem wf_build_of_find? (h : opcodeRows.find? (fun r => w &&& r.mask == r.pattern) = some r) :
    (r.build w).wf = true := by
  obtain ⟨hr, hmatch⟩ := mem_and_match_of_find? h
  by_cases hcls : w = 0x00E0
  · subst hcls
    obtain rfl := Option.some.inj h
    rfl
  by_cases hret : w = 0x00EE
  · subst hret
    obtain rfl := Option.some.inj h
    rfl
  obtain hwf | ⟨nnn, e⟩ := wf_build_or_sys hr w
  · exact hwf
  · have hw : encodeWord (.sys nnn) = w := e ▸ encodeWord_build hr hmatch
    rw [e]
    exact wf_sys (hw ▸ hcls) (hw ▸ hret)

theorem listedPatterns_eq : listedPatterns = opcodeRows.map fun r => (r.mask, r.pattern) := rfl

theorem unlisted_of_find?_eq_none (h : opcodeRows.find? (fun r => w &&& r.mask == r.pattern) = none) :
    listedWord w = false := by
  rw [listedWord, listedPatterns_eq, List.any_map, List.any_eq_false]
  exact List.find?_eq_none.1 h

/-- Settles O1: the first matching row builds the decoded instruction, and without a row the key is unlisted. -/
theorem everyWordDecodesByTheOpcodeTable : Obligations.EveryWordDecodesByTheOpcodeTable := by
  intro w
  split
  next r h =>
    obtain ⟨hr, hmatch⟩ := mem_and_match_of_find? h
    exact decodeWord_build hr hmatch (wf_build_of_find? h)
  next h => exact decodeWord_of_unlisted (unlisted_of_find?_eq_none h)

/-- Settles O3: the row that decodes the word builds a well-formed instruction with the word's encoding. -/
theorem encodeInvertsDecode : Obligations.EncodeInvertsDecode := by
  intro w
  rw [everyWordDecodesByTheOpcodeTable w]
  split
  next r h =>
    obtain ⟨hr, hmatch⟩ := mem_and_match_of_find? h
    exact ⟨wf_build_of_find? h, encodeWord_build hr hmatch⟩
  next h => exact ⟨by simpa [Instr.wf] using unlisted_of_find?_eq_none h, rfl⟩

end Sys2Proof.Safety
end

section
/-! SUPPORT. Changing the dialect of the session commutes with the operations that do not consult the quirk table
(30_encoding.md R75). -/

namespace Sys2Proof.Safety

open Sys2Proof.Machine

variable (d : Dialect) (s : State)

theorem withDialect_skipIf (c : Bool) : (withDialect d s).skipIf c = withDialect d (s.skipIf c) := by
  cases c <;> rfl

theorem push_withDialect (a : Word) : (withDialect d s).push a = (s.push a).map (withDialect d) := by
  unfold State.push
  rw [apply_ite (Option.map (withDialect d))]
  rfl

theorem pop_withDialect : (withDialect d s).pop = s.pop.map (Prod.map id (withDialect d)) := by
  unfold State.pop
  rw [apply_ite (Option.map (Prod.map id (withDialect d)))]
  rfl

theorem callTo_withDialect (target : Word) :
    callTo target (withDialect d s) = mapNext (withDialect d) (callTo target s) := by
  have hpc : (withDialect d s).pc = s.pc := rfl
  unfold callTo
  rw [hpc, push_withDialect]
  cases s.push s.pc <;> rfl

theorem execRet_withDialect : execRet (withDialect d s) = mapNext (withDialect d) (execRet s) := by
  unfold execRet
  rw [pop_withDialect]
  cases s.pop <;> rfl

theorem execLdVxK_withDialect (x : Reg) :
    execLdVxK x (withDialect d s) = mapNext (withDialect d) (execLdVxK x s) := by
  have hkw : (withDialect d s).kw = s.kw := rfl
  unfold execLdVxK
  rw [hkw]
  split <;> rfl

/-- The bounds check reads I only, and its fault leaves the session's configuration alone. -/
theorem accessFromI_withDialect {i : Instr} {count : Nat} {go go' : Result} (hgo : go' = mapNext (withDialect d) go) :
    accessFromI i count (withDialect d s) go' = mapNext (withDialect d) (accessFromI i count s go) := by
  unfold accessFromI
  rw [hgo, apply_ite (mapNext (withDialect d))]
  rfl

/-- Settles O6: an instruction reads the dialect through the quirk table only, and the other operations commute with the
change of dialect. -/
theorem dialectMattersOnlyToQuirkInstructions : Obligations.DialectMattersOnlyToQuirkInstructions := by
  intro i d s h
  cases i with
  | orReg _ _ | andReg _ _ | xorReg _ _ | shr _ _ | shl _ _ | jpo _ | stRegs _ | ldRegs _ => cases h
  | seImm _ _ | sneImm _ _ | seReg _ _ | sneReg _ _ | skp _ | sknp _ =>
    exact congrArg Host.Outcome.next (withDialect_skipIf d s _)
  | sys _ | call _ => exact callTo_withDialect d s _
  | ret => exact execRet_withDialect d s
  | ldVxK x => exact execLdVxK_withDialect d s x
  | drw _ _ _ | ldB _ => exact accessFromI_withDialect d s rfl
  | cls | jp _ | ldImm _ _ | addImm _ _ | ldReg _ _ | addReg _ _ | sub _ _ | subn _ _ | ldI _ | rnd _ _ | ldVxDt _
  | ldDt _ | ldSt _ | addI _ | ldF _ | unsupported _ => rfl

end Sys2Proof.Safety
end

section
/-! SUPPORT. Control transfer and skips (40_flow.md): how their words decode, what a jump and a skip do to PC, and which
offset BNNN adds. -/

namespace Sys2Proof

theorem toNat_and_low_nibble (w : Word) : (w &&& 0x000F#16).toNat = (fieldN w).val := by
  rw [BitVec.toNat_and]
  simpa [fieldN, bits, Fin.ofNat] using Nat.and_two_pow_sub_one_eq_mod w.toNat 4

end Sys2Proof

namespace Sys2Proof.Machine

variable (s : State)

/-- A skip moves PC by 2 modulo 65536 (40_flow.md R100). -/
theorem State.toNat_pc_skipIf (c : Bool) :
    (s.skipIf c).pc.toNat = if c then (s.pc.toNat + 2) % 65536 else s.pc.toNat := by
  cases c
  · rfl
  · exact BitVec.toNat_add _ _

/-- An address and a byte add without wrap, since 0xFFF + 0xFF fits in 16 bits. -/
theorem toNat_addressOf_add_zext16 (nnn : BitVec 12) (b : Byte) :
    (addressOf nnn + zext16 b).toNat = nnn.toNat + b.toNat := by
  rw [BitVec.toNat_add, toNat_addressOf, BitVec.toNat_setWidth]
  omega

theorem jumpReg_eq (nnn : BitVec 12) : jumpReg nnn = (nnn.extractLsb' 8 4).toFin := by
  apply Fin.ext
  simp [jumpReg, Fin.ofNat, Nat.shiftRight_eq_div_pow]

theorem toNat_addressOf_add_jumpAmount_v0 (nnn : BitVec 12) :
    (addressOf nnn + jumpAmount .v0 nnn s).toNat = nnn.toNat + (s.reg 0).toNat :=
  toNat_addressOf_add_zext16 nnn _

theorem toNat_addressOf_add_jumpAmount_vx (nnn : BitVec 12) :
    (addressOf nnn + jumpAmount .vx nnn s).toNat = nnn.toNat + (s.reg (nnn.extractLsb' 8 4).toFin).toNat := by
  rw [← jumpReg_eq]
  exact toNat_addressOf_add_zext16 nnn _

end Sys2Proof.Machine

namespace Sys2Proof.Safety

open Sys2Proof.Machine

variable {s : State}

/-! ## Decoding -/

/-- Every word of a listed row that builds well-formed instructions decodes by that row. -/
theorem decodesTo_of_mem {mask pattern : Word} {build : Word → Instr} (hr : ⟨mask, pattern, build⟩ ∈ opcodeRows)
    (hwf : ∀ w, (build w).wf = true) : DecodesTo mask pattern build := fun w h =>
  decodeWord_build hr h (hwf w)

theorem decodeWord_eq_ret_iff (w : Word) : decodeWord w = .ret ↔ w = 0x00EE := by
  constructor
  · intro h
    obtain ⟨-, hw⟩ := encodeInvertsDecode w
    rw [← hw, h]
    rfl
  · rintro rfl
    rfl

/-! ## Frames -/

theorem changesOnlyPc_setPc (s : State) (a : Word) : ChangesOnlyPc s (s.setPc a) :=
  ⟨rfl, fun _ _ => rfl, fun _ => rfl⟩

theorem changesOnlyPc_skipIf (s : State) (c : Bool) : ChangesOnlyPc s (s.skipIf c) := by
  rw [s.skipIf_eq c]
  exact changesOnlyPc_setPc s _

theorem onlyReports_report (s : State) (d : Diagnostic) : OnlyReports d s (s.report d) :=
  ⟨rfl, fun _ _ => rfl, fun _ => rfl⟩

/-! ## RET, CALL, SYS -/

/-- Settles O32: the two cases of a pop, and the entry below a depth of at most 255 exists. -/
theorem retPopsOrReports : Obligations.RetPopsOrReports := by
  refine ⟨decodeWord_eq_ret_iff, fun s => ⟨fun hempty => ?_, fun hpos hcap => ?_⟩⟩
  · obtain ⟨-, he⟩ | ⟨hpos, -⟩ := execRet_cases s
    · exact ⟨_, he, onlyReports_report s _⟩
    · omega
  · obtain ⟨hempty, -⟩ | ⟨-, he⟩ := execRet_cases s
    · omega
    · have htop : s.sp - 1 < 255 := by omega
      exact ⟨_, he, by simp [htop], rfl, fun _ _ => rfl, fun _ => rfl⟩

/-- CALL and SYS alike: report on a full stack, and push and jump below capacity. -/
theorem callTo_pushes_or_reports (nnn : BitVec 12) (s : State) :
    (s.sp = 255 → ∃ t, callTo (addressOf nnn) s = .next t ∧ OnlyReports (.callStackOverflow (s.pc - 2)) s t) ∧
    (s.sp < 255 → ∃ t, callTo (addressOf nnn) s = .next t ∧ t.pc.toNat = nnn.toNat ∧ t.stack[s.sp]? = some s.pc ∧
      (∀ j, j ≠ s.sp → t.stack[j]? = s.stack[j]?) ∧
      t = { s with stack := t.stack, sp := s.sp + 1, pc := t.pc } ∧ KeepsRegsBut [] s t ∧ KeepsMemory s t) := by
  obtain ⟨hfull, he⟩ | ⟨hroom, he⟩ := callTo_cases s (addressOf nnn)
  · exact ⟨fun _ => ⟨_, he, onlyReports_report s _⟩, fun hlt => absurd hlt (Nat.not_lt.2 hfull)⟩
  · refine ⟨fun hfull => absurd hroom (Nat.not_lt.2 hfull.ge), fun _ =>
      ⟨_, he, toNat_addressOf nnn, ?_, fun j hj => ?_, rfl, fun _ _ => rfl, fun _ => rfl⟩⟩
    · simp [hroom]
    · simp [Ne.symm hj]

/-- Settles O33: both instructions are `callTo` of their address. -/
theorem callAndSysPushAndJumpOrReport : Obligations.CallAndSysPushAndJumpOrReport := by
  refine ⟨decodesTo_of_mem (by simp [opcodeRows]) fun _ => rfl, fun w hop hcls hret => ?_, ?_⟩
  · rw [nnnOf_eq]
    exact decodeWord_of_op0 ((and_op_iff w 0 (by decide)).1 hop) hcls hret
  · rintro nnn s i (rfl | rfl)
    · exact callTo_pushes_or_reports nnn s
    · exact callTo_pushes_or_reports nnn s

/-! ## Jumps and skips -/

/-- Settles O34: JP is a write of PC. -/
theorem jumpSetsPc : Obligations.JumpSetsPc :=
  ⟨decodesTo_of_mem (by simp [opcodeRows]) fun _ => rfl,
    fun nnn s => ⟨_, rfl, toNat_addressOf nnn, changesOnlyPc_setPc s _⟩⟩

/-- A skip on equal bytes. -/
theorem toNat_pc_skipIf_beq (s : State) (a b : Byte) : (s.skipIf (a == b)).pc.toNat =
    if a.toNat = b.toNat then (s.pc.toNat + 2) % 65536 else s.pc.toNat := by
  simp [s.toNat_pc_skipIf, BitVec.toNat_inj]

/-- A skip on different bytes. -/
theorem toNat_pc_skipIf_bne (s : State) (a b : Byte) : (s.skipIf (a != b)).pc.toNat =
    if a.toNat = b.toNat then s.pc.toNat else (s.pc.toNat + 2) % 65536 := by
  simp [s.toNat_pc_skipIf, BitVec.toNat_inj]

/-- Settles O35: both instructions are skips on a comparison of bytes. -/
theorem skipsOnImmediate : Obligations.SkipsOnImmediate :=
  ⟨decodesTo_of_mem (by simp [opcodeRows]) fun _ => rfl, decodesTo_of_mem (by simp [opcodeRows]) fun _ => rfl,
    fun _ _ s => ⟨⟨_, rfl, changesOnlyPc_skipIf s _, toNat_pc_skipIf_beq s _ _⟩,
      ⟨_, rfl, changesOnlyPc_skipIf s _, toNat_pc_skipIf_bne s _ _⟩⟩⟩

/-- In the 5 and 9 groups a low nibble other than 0 is an unlisted key (30_encoding.md R82). -/
theorem decodeWord_of_op5_or_op9 {w : Word} (hop : w &&& 0xF000 = 0x5000 ∨ w &&& 0xF000 = 0x9000)
    (hn : w &&& 0x000F ≠ 0) : decodeWord w = .unsupported w := by
  have hgroup : fieldOp w ∈ [0x5, 0x9] := by
    obtain hop | hop := hop
    · simp [(and_op_iff w 0x5 (by decide)).1 hop]
    · simp [(and_op_iff w 0x9 (by decide)).1 hop]
  have hkey : fieldN w ≠ 0 := fun h =>
    hn (BitVec.eq_of_toNat_eq ((toNat_and_low_nibble w).trans (congrArg Fin.val h)))
  exact decodeWord_eq_unsupported_iff.2 (.inl ⟨hgroup, hkey⟩)

/-- Settles O36: both instructions are skips on a comparison of bytes, and the other low nibbles are unlisted. -/
theorem skipsOnRegisters : Obligations.SkipsOnRegisters :=
  ⟨decodesTo_of_mem (by simp [opcodeRows]) fun _ => rfl, decodesTo_of_mem (by simp [opcodeRows]) fun _ => rfl,
    fun _ => decodeWord_of_op5_or_op9,
    fun _ _ s => ⟨⟨_, rfl, changesOnlyPc_skipIf s _, toNat_pc_skipIf_beq s _ _⟩,
      ⟨_, rfl, changesOnlyPc_skipIf s _, toNat_pc_skipIf_bne s _ _⟩⟩⟩

/-! ## BNNN -/

section

variable {nnn : BitVec 12}

theorem exec_jpo_of_jumpOffset {src : JumpSource} (h : jumpOffset s.cfg.dialect = some src) :
    exec (.jpo nnn) s = .next (s.setPc (addressOf nnn + jumpAmount src nnn s)) := by
  simp [exec, execJpo, h, jumpWithOffset]

theorem exec_jpo_of_sourceNoOp (hd : s.cfg.dialect = .chip48) (hb : s.cfg.bnnnChip48 = .sourceNoOp) :
    exec (.jpo nnn) s = .next s := by
  simp [exec, execJpo, hd, hb, jumpOffset]

theorem exec_jpo_of_offsetV0 (hd : s.cfg.dialect = .chip48) (hb : s.cfg.bnnnChip48 = .offsetV0) :
    exec (.jpo nnn) s = .next (s.setPc (addressOf nnn + jumpAmount .v0 nnn s)) := by
  simp [exec, execJpo, hd, hb, jumpOffset, jumpWithOffset]

theorem exec_jpo_of_offsetVX (hd : s.cfg.dialect = .chip48) (hb : s.cfg.bnnnChip48 = .offsetVX) :
    exec (.jpo nnn) s = .next (s.setPc (addressOf nnn + jumpAmount .vx nnn s)) := by
  simp [exec, execJpo, hd, hb, jumpOffset, jumpWithOffset]

end

/-- Settles O37: the offset register by dialect, and under CHIP48 by BNNN_CHIP48; the fault is `raisedFault`'s. -/
theorem jumpWithOffsetFollowsTheDialect : Obligations.JumpWithOffsetFollowsTheDialect := by
  refine ⟨decodesTo_of_mem (by simp [opcodeRows]) fun _ => rfl, fun nnn s => ?_⟩
  have hv0 := toNat_addressOf_add_jumpAmount_v0 s nnn
  have hvx := toNat_addressOf_add_jumpAmount_vx s nnn
  refine ⟨fun hd => ?cosmacvip, fun hd => ?superchip, fun hd =>
    ⟨fun hb => ?fault, exec_jpo_of_sourceNoOp hd, fun hb => ?offsetV0, fun hb => ?offsetVX⟩⟩
  case cosmacvip => exact ⟨_, exec_jpo_of_jumpOffset (by rw [hd]; rfl), hv0, changesOnlyPc_setPc s _⟩
  case superchip => exact ⟨_, exec_jpo_of_jumpOffset (by rw [hd]; rfl), hvx, changesOnlyPc_setPc s _⟩
  case fault => exact ⟨encodeWord (.jpo nnn), toNat_layoutNNN (by decide) nnn, exec_eq_raise (if_pos ⟨hd, hb⟩)⟩
  case offsetV0 => exact ⟨_, exec_jpo_of_offsetV0 hd hb, hv0, changesOnlyPc_setPc s _⟩
  case offsetVX => exact ⟨_, exec_jpo_of_offsetVX hd hb, hvx, changesOnlyPc_setPc s _⟩

end Sys2Proof.Safety
end

section
/-! SUPPORT. Arithmetic and logic (41_alu.md): what a register write, a result with its flag and a logic result change,
and what they leave in V[x] and VF. -/

namespace Sys2Proof.Machine

variable (s : State)

/-- The flag is written last, so VF holds it whatever the destination (R120). -/
@[simp] theorem State.reg_setRegAndFlag_vf (x : Reg) (p : Byte × Byte) : (s.setRegAndFlag x p).reg vf = p.2 := by
  simp [s.reg_setRegAndFlag]

/-- A destination other than VF keeps the result. -/
theorem State.reg_setRegAndFlag_dest {x : Reg} (hx : x ≠ vf) (p : Byte × Byte) :
    (s.setRegAndFlag x p).reg x = p.1 := by
  simp [s.reg_setRegAndFlag, hx]

/-- Under COSMACVIP a logic result goes with the flag 0 (R124). -/
theorem State.setRegLogic_of_cosmacvip (hd : s.cfg.dialect = .cosmacvip) (x : Reg) (b : Byte) :
    s.setRegLogic x b = s.setRegAndFlag x (b, 0) := by
  rw [State.setRegLogic, hd]
  rfl

theorem logicClearsVF_of_ne_cosmacvip {d : Dialect} (hd : d ≠ .cosmacvip) : logicClearsVF d = false := by
  cases d with
  | cosmacvip => exact absurd rfl hd
  | chip48 | superchip => rfl

/-- In the other dialects a logic result is a plain register write (R124). -/
theorem State.setRegLogic_of_ne_cosmacvip (hd : s.cfg.dialect ≠ .cosmacvip) (x : Reg) (b : Byte) :
    s.setRegLogic x b = s.setReg x b := by
  rw [State.setRegLogic, logicClearsVF_of_ne_cosmacvip hd]
  rfl

end Sys2Proof.Machine

namespace Sys2Proof.Safety

open Sys2Proof.Machine

/-! ## Frames -/

section

variable {s t u : State} {rs rs' : List Reg}

theorem ChangesOnlyRegs.trans (h : ChangesOnlyRegs rs s t) (h' : ChangesOnlyRegs rs' t u) :
    ChangesOnlyRegs (rs ++ rs') s u := by
  obtain ⟨ht, hreg, hmem⟩ := h
  obtain ⟨hu, hreg', hmem'⟩ := h'
  refine ⟨hu.trans (by rw [ht]), fun r hr => ?_, fun a => (hmem' a).trans (hmem a)⟩
  calc u.reg r
    _ = t.reg r := hreg' r fun h => hr (List.mem_append_right rs h)
    _ = s.reg r := hreg r fun h => hr (List.mem_append_left rs' h)

end

variable (s : State)

theorem changesOnlyRegs_setReg (x : Reg) (b : Byte) : ChangesOnlyRegs [x] s (s.setReg x b) :=
  ⟨rfl, fun _ hr => s.reg_setReg_other (List.ne_of_not_mem_cons hr) b, fun _ => rfl⟩

/-- A result and its flag are two register writes. -/
theorem changesOnlyRegs_setRegAndFlag (x : Reg) (p : Byte × Byte) : ChangesOnlyRegs [x, vf] s (s.setRegAndFlag x p) :=
  (changesOnlyRegs_setReg s x p.1).trans (changesOnlyRegs_setReg _ vf p.2)

/-! ## Loads and ADD with an immediate -/

/-- Settles O40: both instructions are one register write. -/
theorem loadsWriteTheRegister : Obligations.LoadsWriteTheRegister :=
  ⟨decodesTo_of_mem (by simp [opcodeRows]) fun _ => rfl, decodesTo_of_mem (by simp [opcodeRows]) fun _ => rfl,
    fun x _ _ s => ⟨⟨_, rfl, s.reg_setReg_same x _, changesOnlyRegs_setReg s x _⟩,
      ⟨_, rfl, s.reg_setReg_same x _, changesOnlyRegs_setReg s x _⟩⟩⟩

/-- Settles O41: one register write, of a sum of bytes. -/
theorem addImmediateWrapsWithoutFlag : Obligations.AddImmediateWrapsWithoutFlag := by
  refine ⟨decodesTo_of_mem (by simp [opcodeRows]) fun _ => rfl, fun x nn s =>
    ⟨_, rfl, ?_, changesOnlyRegs_setReg s x _⟩⟩
  rw [s.reg_setReg_same]
  exact BitVec.toNat_add _ _

/-! ## OR, AND, XOR -/

/-- A logic result in both kinds of dialect, x = F included. -/
theorem setRegLogic_result (x : Reg) (r : Byte) :
    (s.cfg.dialect = .cosmacvip → (x ≠ vf → (s.setRegLogic x r).reg x = r) ∧ (s.setRegLogic x r).reg vf = 0 ∧
      ChangesOnlyRegs [x, vf] s (s.setRegLogic x r)) ∧
    (s.cfg.dialect ≠ .cosmacvip → (s.setRegLogic x r).reg x = r ∧ ChangesOnlyRegs [x] s (s.setRegLogic x r)) := by
  refine ⟨fun hd => ?_, fun hd => ?_⟩
  · rw [s.setRegLogic_of_cosmacvip hd]
    exact ⟨fun hx => s.reg_setRegAndFlag_dest hx _, s.reg_setRegAndFlag_vf x _, changesOnlyRegs_setRegAndFlag s x _⟩
  · rw [s.setRegLogic_of_ne_cosmacvip hd]
    exact ⟨s.reg_setReg_same x r, changesOnlyRegs_setReg s x r⟩

/-- Settles O42: the three instructions write a logic result. -/
theorem logicWritesResultAndClearsVfUnderCosmacvip : Obligations.LogicWritesResultAndClearsVfUnderCosmacvip := by
  refine ⟨decodesTo_of_mem (by simp [opcodeRows]) fun _ => rfl, decodesTo_of_mem (by simp [opcodeRows]) fun _ => rfl,
    decodesTo_of_mem (by simp [opcodeRows]) fun _ => rfl, ?_⟩
  rintro x y s i r (⟨rfl, rfl⟩ | ⟨rfl, rfl⟩ | ⟨rfl, rfl⟩)
  case inl => exact ⟨_, rfl, setRegLogic_result s x _⟩
  case inr.inl => exact ⟨_, rfl, setRegLogic_result s x _⟩
  case inr.inr => exact ⟨_, rfl, setRegLogic_result s x _⟩

/-! ## ADD, SUB, SUBN, SHR, SHL: a result and then its flag -/

/-- A result and its flag as numbers: `r` stays in V[x] unless x = F, and `f` ends in VF. -/
theorem setRegAndFlag_result {p : Byte × Byte} {r f : Nat} (hr : p.1.toNat = r) (hf : p.2.toNat = f) (x : Reg) :
    (x ≠ vf → ((s.setRegAndFlag x p).reg x).toNat = r) ∧ ((s.setRegAndFlag x p).reg vf).toNat = f ∧
      ChangesOnlyRegs [x, vf] s (s.setRegAndFlag x p) := by
  subst hr hf
  exact ⟨fun hx => congrArg BitVec.toNat (s.reg_setRegAndFlag_dest hx p),
    congrArg BitVec.toNat (s.reg_setRegAndFlag_vf x p), changesOnlyRegs_setRegAndFlag s x p⟩

/-- Settles O43: the sum and its carry. -/
theorem addRegistersWritesSumThenCarry : Obligations.AddRegistersWritesSumThenCarry :=
  ⟨decodesTo_of_mem (by simp [opcodeRows]) fun _ => rfl, fun x _ s =>
    ⟨_, rfl, setRegAndFlag_result s (toNat_addWithCarry_fst _ _) (toNat_addWithCarry_snd _ _) x⟩⟩

/-- Settles O44: SUBN is SUB's difference with the operands exchanged. -/
theorem subtractWritesDifferenceThenNoBorrow : Obligations.SubtractWritesDifferenceThenNoBorrow := by
  refine ⟨decodesTo_of_mem (by simp [opcodeRows]) fun _ => rfl, decodesTo_of_mem (by simp [opcodeRows]) fun _ => rfl,
    ?_⟩
  have hdiff (x : Reg) (s : State) (a b : Byte) :=
    setRegAndFlag_result s (toNat_subWithNoBorrow_fst a b) (toNat_subWithNoBorrow_snd a b) x
  rintro x y s i _ _ (⟨rfl, rfl, rfl⟩ | ⟨rfl, rfl, rfl⟩)
  · exact ⟨_, rfl, hdiff x s (s.reg x) (s.reg y)⟩
  · exact ⟨_, rfl, hdiff x s (s.reg y) (s.reg x)⟩

/-- The byte a shift reads, as a number. -/
theorem toNat_reg_shiftReg (x y : Reg) : (s.reg (shiftReg s.cfg.dialect x y)).toNat =
    if s.cfg.dialect = .cosmacvip then (s.reg y).toNat else (s.reg x).toNat := by
  rw [shiftReg_eq]
  split <;> rfl

/-- Settles O45: the dialect's source register, shifted with the bit out as the flag. -/
theorem shiftsWriteResultThenBitShiftedOut : Obligations.ShiftsWriteResultThenBitShiftedOut := by
  refine ⟨decodesTo_of_mem (by simp [opcodeRows]) fun _ => rfl, decodesTo_of_mem (by simp [opcodeRows]) fun _ => rfl,
    fun x y s v hv => ?_⟩
  rw [← toNat_reg_shiftReg] at hv
  subst hv
  obtain ⟨hright, hrightOut⟩ := toNat_shiftRightOut (s.reg (shiftReg s.cfg.dialect x y))
  obtain ⟨hleft, hleftOut⟩ := toNat_shiftLeftOut (s.reg (shiftReg s.cfg.dialect x y))
  exact ⟨⟨_, rfl, setRegAndFlag_result s hright hrightOut x⟩, ⟨_, rfl, setRegAndFlag_result s hleft hleftOut x⟩⟩

/-! ## RND -/

/-- Settles O46: a register write in the state that has taken the draw. -/
theorem randomByteIsMasked : Obligations.RandomByteIsMasked := by
  refine ⟨decodesTo_of_mem (by simp [opcodeRows]) fun _ => rfl, fun x nn s => ?_⟩
  have hreg := s.draw.2.reg_setReg_same x (Config.randomByte s.draws &&& nn)
  obtain ⟨hrest, hkeeps, hmem⟩ := changesOnlyRegs_setReg s.draw.2 x (Config.randomByte s.draws &&& nn)
  refine ⟨_, rfl, hreg, fun hnn => ?_, hrest, hkeeps, hmem⟩
  exact hreg.trans (by rw [hnn]; exact BitVec.and_zero)

end Sys2Proof.Safety
end

section
/-! SUPPORT. The index register and the transfers between registers and memory (42_index_memory.md): what each
instruction answers inside the address space, and the bytes that a store leaves behind and a load reads. -/

namespace Sys2Proof.Machine

variable {s t : State} {x : Reg}

/-! ## The operands -/

/-- I after FX55 and FX65 advances modulo 65536 under COSMACVIP only (10_state.md R38). -/
theorem State.toNat_indexAfter (s : State) (x : Reg) : (s.indexAfter x).toNat =
    if s.cfg.dialect = .cosmacvip then (s.i.toNat + x.val + 1) % 65536 else s.i.toNat := by
  unfold State.indexAfter
  cases s.cfg.dialect with
  | cosmacvip => simp [memIncrementsI, Nat.add_assoc]
  | chip48 | superchip => rfl

@[simp] theorem length_decimalDigits (v : Byte) : (decimalDigits v).length = 3 := rfl

@[simp] theorem State.length_regsUpTo (s : State) (x : Reg) : (s.regsUpTo x).length = x.val + 1 := by
  simp [s.regsUpTo_eq_map]

theorem State.getD_regsUpTo (s : State) {x k : Reg} (h : k ≤ x) : (s.regsUpTo x).getD k.val 0 = s.reg k := by
  have hk : k.val < x.val + 1 := Nat.lt_succ_of_le h
  simp [s.regsUpTo_eq_map, hk]

/-! ## Stores -/

theorem exec_ldB_of_le (h : s.i.toNat + 3 ≤ 4096) :
    exec (.ldB x) s = .next { s with mem := s.mem.writeRange s.i.toNat (decimalDigits (s.reg x)) } :=
  accessFromI_of_le h

theorem exec_stRegs_of_le (h : s.i.toNat + (x.val + 1) ≤ 4096) : exec (.stRegs x) s =
    .next { s with mem := s.mem.writeRange s.i.toNat (s.regsUpTo x), i := s.indexAfter x } :=
  accessFromI_of_le h

section

variable {base : Nat} {bytes : List Byte}

/-- A byte that was stored from `base` up is read at its place. -/
theorem State.readByte_stored (hwf : s.mem.wf = true) (hin : base + bytes.length ≤ 4096)
    (hmem : t.mem = s.mem.writeRange base bytes) {k : Nat} (hk : k < bytes.length) :
    t.readByte (base + k) = bytes.getD k 0 := by
  rw [State.readByte, hmem, Memory.read_writeRange hwf hin, if_pos (by omega), Nat.add_sub_cancel_left]

/-- Outside the range stored to, bytes read as before. -/
theorem State.readByte_unstored (hwf : s.mem.wf = true) (hin : base + bytes.length ≤ 4096)
    (hmem : t.mem = s.mem.writeRange base bytes) {a : Nat} (ha : ¬(base ≤ a ∧ a < base + bytes.length)) :
    t.readByte a = s.readByte a := by
  rw [State.readByte, hmem, Memory.read_writeRange hwf hin, if_neg ha]
  rfl

end

/-! ## Loads -/

theorem exec_ldRegs_of_le (h : s.i.toNat + (x.val + 1) ≤ 4096) : exec (.ldRegs x) s =
    .next { s with v := setRegsFrom s.v 0 (s.mem.readRange s.i.toNat (x.val + 1)), i := s.indexAfter x } :=
  accessFromI_of_le h

/-- Loading `n` bytes from `a` up gives the first `n` registers the byte at their place and keeps the others. -/
theorem getElem_setRegsFrom_readRange (v : Vector Byte 16) (m : Memory) (a n : Nat) {r : Nat} (hr : r < 16) :
    (setRegsFrom v 0 (m.readRange a n))[r] = if r < n then m.read (a + r) else v[r] := by
  rw [getElem_setRegsFrom _ _ _ _ hr, Memory.length_readRange, Memory.readRange_eq_map]
  by_cases h : r < n
  · simp [h]
  · simp [h]

end Sys2Proof.Machine

namespace Sys2Proof.Safety

open Sys2Proof.Machine

variable {s t : State}

theorem changesOnlyI_setI (s : State) (a : Word) : ChangesOnlyI s (s.setI a) :=
  ⟨rfl, fun _ _ => rfl, fun _ => rfl⟩

/-- An instruction that checks `count` bytes from I up takes MemoryBoundsError where they leave the address space, and
the word that the fault records decodes to the instruction (60_exceptions.md R201, R205). -/
theorem takesFault_of_out_of_bounds {i : Instr} {count : Nat} (hwf : i.wf = true)
    (hi : raisedFault i s = boundsFault i count s) (hpos : 0 < count) (hout : 4096 < s.i.toNat + count) :
    ∃ w, decodeWord w = i ∧ TakesFault i s (.memoryBoundsError (max s.i.toNat 4096) (s.pc - 2) (some w)) :=
  ⟨encodeWord i, decodeWord_encodeWord hwf, exec_eq_raise (hi.trans (if_pos ⟨hpos, hout⟩))⟩

/-! ## LD I, ADD I, LD F -/

/-- Settles O47: the three instructions are one write of I. -/
theorem indexInstructionsWriteOnlyI : Obligations.IndexInstructionsWriteOnlyI := by
  refine ⟨decodesTo_of_mem (by simp [opcodeRows]) fun _ => rfl, decodesTo_of_mem (by simp [opcodeRows]) fun _ => rfl,
    decodesTo_of_mem (by simp [opcodeRows]) fun _ => rfl, fun nnn x s => ?_⟩
  have hsum : (s.i + zext16 (s.reg x)).toNat = (s.i.toNat + (s.reg x).toNat) % 65536 := by simp
  exact ⟨⟨_, rfl, toNat_addressOf nnn, changesOnlyI_setI s _⟩, ⟨_, rfl, hsum, changesOnlyI_setI s _⟩,
    ⟨_, rfl, toNat_glyphAddress (s.reg x), changesOnlyI_setI s _⟩⟩

/-! ## LD B -/

/-- The three bytes are the hundreds, the tens and the ones. -/
theorem toNat_getD_decimalDigits (v : Byte) :
    ((decimalDigits v).getD 0 0).toNat = v.toNat / 100 ∧ ((decimalDigits v).getD 1 0).toNat = v.toNat / 10 % 10 ∧
      ((decimalDigits v).getD 2 0).toNat = v.toNat % 10 := by
  have := v.isLt
  exact ⟨Nat.mod_eq_of_lt (by omega), Nat.mod_eq_of_lt (by omega), Nat.mod_eq_of_lt (by omega)⟩

/-- Settles O48: the digits are read back where they were stored, and the bounds check covers the last of them. -/
theorem decimalDigitsAreStoredAtI : Obligations.DecimalDigitsAreStoredAtI := by
  refine ⟨decodesTo_of_mem (by simp [opcodeRows]) fun _ => rfl, fun x s => ⟨fun hin hwf => ?_, fun hout => ?_⟩⟩
  · have hfits : s.i.toNat + (decimalDigits (s.reg x)).length ≤ 4096 := Nat.succ_le_succ hin
    obtain ⟨hundreds, tens, ones⟩ := toNat_getD_decimalDigits (s.reg x)
    refine ⟨_, exec_ldB_of_le hfits, ?_, ?_, ?_, rfl, fun _ _ => rfl,
      fun a ha => State.readByte_unstored hwf hfits rfl ha⟩
    · exact (congrArg BitVec.toNat (State.readByte_stored (k := 0) hwf hfits rfl (by simp))).trans hundreds
    · exact (congrArg BitVec.toNat (State.readByte_stored hwf hfits rfl (by simp))).trans tens
    · exact (congrArg BitVec.toNat (State.readByte_stored hwf hfits rfl (by simp))).trans ones
  · exact takesFault_of_out_of_bounds rfl rfl (by decide) (by omega)

/-! ## LD [I] and its inverse -/

/-- Settles O49: the registers are read back where they were stored, and the bounds check covers the last of them. -/
theorem registersAreStoredFromI : Obligations.RegistersAreStoredFromI := by
  refine ⟨decodesTo_of_mem (by simp [opcodeRows]) fun _ => rfl, fun x s => ⟨fun hin hwf => ?_, fun hout => ?_⟩⟩
  · have hfits : s.i.toNat + (s.regsUpTo x).length ≤ 4096 := by
      rw [s.length_regsUpTo]
      omega
    refine ⟨_, exec_stRegs_of_le (by omega), fun k hk => ?_, s.toNat_indexAfter x, rfl, fun _ _ => rfl,
      fun a ha => State.readByte_unstored hwf hfits rfl (by rwa [s.length_regsUpTo])⟩
    rw [State.readByte_stored hwf hfits rfl (by rw [s.length_regsUpTo]; exact Nat.lt_succ_of_le hk)]
    exact s.getD_regsUpTo hk
  · exact takesFault_of_out_of_bounds rfl rfl (Nat.succ_pos _) (by omega)

/-- Settles O50: each register up to V`x` gets the byte at its place. -/
theorem registersAreLoadedFromI : Obligations.RegistersAreLoadedFromI := by
  refine ⟨decodesTo_of_mem (by simp [opcodeRows]) fun _ => rfl, fun x s => ⟨fun hin => ?_, fun hout => ?_⟩⟩
  · have hreg (k : Reg) := getElem_setRegsFrom_readRange s.v s.mem s.i.toNat (x.val + 1) k.isLt
    exact ⟨_, exec_ldRegs_of_le (by omega), fun k hk => (hreg k).trans (if_pos (Nat.lt_succ_of_le hk)),
      fun k hk => (hreg k).trans (if_neg (Nat.not_lt.2 hk)), s.toNat_indexAfter x, rfl, fun _ => rfl⟩
  · exact takesFault_of_out_of_bounds rfl rfl (Nat.succ_pos _) (by omega)

/-- Settles O51: the load reads the bytes that the store left, and these are the registers. -/
theorem loadInvertsStore : Obligations.LoadInvertsStore := by
  intro x s t v hwf hin hstore
  obtain ⟨-, hstores⟩ := registersAreStoredFromI
  obtain ⟨t', he, hstored, -⟩ := (hstores x s).1 hin hwf
  obtain rfl := nextState_unique hstore he
  obtain ⟨-, hloads⟩ := registersAreLoadedFromI
  obtain ⟨u, hload, hloaded, -⟩ := (hloads x { t with i := s.i, v := v }).1 hin
  exact ⟨u, hload, fun k hk => (hloaded k hk).trans (hstored k hk)⟩

end Sys2Proof.Safety
end

section
/-! SUPPORT. The display and its instructions (43_display.md): DrawSprite inverts a set of pixels and reports a
collision with it, which is an induction over the columns of a row and the rows of a sprite, and DRW answers what it
draws. -/

namespace Sys2Proof.Machine

/-! ## Inverting a set of pixels -/

/-- From `acc` to `acc'` the pixels of `m` on the screen are inverted, and the flag is raised where one of them was set
(43_display.md R162). -/
def Inverts (m : Nat → Nat → Bool) (acc acc' : Display × Bool) : Prop :=
  (∀ qx qy, qx < 64 → qy < 32 → acc'.1.pixel qx qy = (acc.1.pixel qx qy ^^ m qx qy)) ∧
  (acc'.2 = true ↔ acc.2 = true ∨ ∃ qx qy, qx < 64 ∧ qy < 32 ∧ acc.1.pixel qx qy = true ∧ m qx qy = true)

section

variable {m m' m'' : Nat → Nat → Bool} {acc acc' acc'' : Display × Bool}

/-- Inverting no pixel of the screen changes nothing. -/
theorem inverts_refl (h : ∀ qx qy, qx < 64 → qy < 32 → m qx qy = false) : Inverts m acc acc := by
  refine ⟨fun qx qy hx hy => by rw [h qx qy hx hy, Bool.xor_false], Or.inl, ?_⟩
  rintro (hc | ⟨qx, qy, hx, hy, -, hm⟩)
  · exact hc
  · exact absurd hm (by simp [h qx qy hx hy])

/-- Inverting two sets of pixels that share none inverts their union: the second finds its pixels as they
were before the first. -/
theorem Inverts.trans (h : Inverts m acc acc') (h' : Inverts m' acc' acc'')
    (hdisjoint : ∀ qx qy, m' qx qy = true → m qx qy = false)
    (hunion : ∀ qx qy, m'' qx qy = (m qx qy || m' qx qy)) : Inverts m'' acc acc'' := by
  obtain ⟨hpix, hflag⟩ := h
  obtain ⟨hpix', hflag'⟩ := h'
  refine ⟨fun qx qy hx hy => ?_, ?_⟩
  · rw [hpix' qx qy hx hy, hpix qx qy hx hy, hunion qx qy]
    cases hm' : m' qx qy with
    | true => simp [hdisjoint qx qy hm']
    | false => simp
  · have hsecond (qx qy) (hx : qx < 64) (hy : qy < 32) (hm' : m' qx qy = true) :
        acc'.1.pixel qx qy = acc.1.pixel qx qy := by
      rw [hpix qx qy hx hy, hdisjoint qx qy hm', Bool.xor_false]
    rw [hflag', hflag, or_assoc]
    refine or_congr_right ⟨?_, ?_⟩
    · rintro (⟨qx, qy, hx, hy, hd, hm⟩ | ⟨qx, qy, hx, hy, hd, hm'⟩)
      · exact ⟨qx, qy, hx, hy, hd, by simp [hunion qx qy, hm]⟩
      · exact ⟨qx, qy, hx, hy, hsecond qx qy hx hy hm' ▸ hd, by simp [hunion qx qy, hm']⟩
    · rintro ⟨qx, qy, hx, hy, hd, hm''⟩
      rw [hunion qx qy, Bool.or_eq_true] at hm''
      obtain hm | hm' := hm''
      · exact .inl ⟨qx, qy, hx, hy, hd, hm⟩
      · exact .inr ⟨qx, qy, hx, hy, (hsecond qx qy hx hy hm').trans hd, hm'⟩

/-- Writing the pixel with `b` added to it inverts the pixel where `b` is set. -/
theorem inverts_setPixel {px py : Nat} (hx : px < 64) (hy : py < 32) (b : Bool) :
    Inverts (fun qx qy => decide (qx = px) && decide (qy = py) && b) acc
      (acc.1.setPixel px py (acc.1.pixel px py ^^ b), acc.2 || (b && acc.1.pixel px py)) := by
  refine ⟨fun qx qy _ _ => ?_, ?_⟩
  · rw [Display.pixel_setPixel]
    by_cases hq : qx = px ∧ qy = py
    · obtain ⟨rfl, rfl⟩ := hq
      simp [hx, hy]
    · have hout : (decide (qx = px) && decide (qy = py)) = false := by simpa using hq
      simp only [hout, Bool.false_and, Bool.xor_false]
      exact if_neg fun c => hq c.2.2
  · simp only [Bool.or_eq_true, Bool.and_eq_true, decide_eq_true_eq]
    refine or_congr_right ⟨fun ⟨hb, hold⟩ => ⟨px, py, hx, hy, hold, ⟨rfl, rfl⟩, hb⟩, ?_⟩
    rintro ⟨qx, qy, -, -, hold, ⟨rfl, rfl⟩, hb⟩
    exact ⟨hb, hold⟩

end

/-! ## The two loops of DrawSprite -/

/-- The pixel lies on row `y0` under a 1 bit among the `k` columns of the sprite byte from column `p` on. -/
def inRow (byte : Byte) (x0 y0 p k qx qy : Nat) : Bool :=
  decide (x0 + p ≤ qx) && decide (qx < x0 + p + k) && decide (qy = y0) && byte.getLsbD (7 - (qx - x0))

/-- The pixel lies under a 1 bit of the sprite whose top left pixel is (x0, y0). -/
def inSprite (x0 y0 : Nat) (bytes : List Byte) (qx qy : Nat) : Bool :=
  decide (x0 ≤ qx) && decide (qx < x0 + 8) && decide (y0 ≤ qy) && decide (qy < y0 + bytes.length) &&
    (bytes.getD (qy - y0) 0).getLsbD (7 - (qx - x0))

theorem inRow_succ (byte : Byte) (x0 y0 p k qx qy : Nat) : inRow byte x0 y0 p (k + 1) qx qy =
    ((decide (qx = x0 + p) && decide (qy = y0) && byte.getLsbD (7 - p)) || inRow byte x0 y0 (p + 1) k qx qy) := by
  by_cases hq : qx = x0 + p
  · subst hq
    simp [inRow]
  · have hlo : x0 + p ≤ qx ↔ x0 + (p + 1) ≤ qx := by omega
    have hhi : x0 + p + (k + 1) = x0 + (p + 1) + k := by omega
    simp [inRow, hq, hlo, hhi]

theorem inSprite_cons (x0 y0 : Nat) (byte : Byte) (bytes : List Byte) (qx qy : Nat) :
    inSprite x0 y0 (byte :: bytes) qx qy = (inRow byte x0 y0 0 8 qx qy || inSprite x0 (y0 + 1) bytes qx qy) := by
  by_cases hq : qy = y0
  · subst hq
    simp [inSprite, inRow]
  · have hlo : y0 ≤ qy ↔ y0 + 1 ≤ qy := by omega
    have hhi : y0 + (bytes.length + 1) = y0 + 1 + bytes.length := by omega
    by_cases hbelow : y0 + 1 ≤ qy
    · have hidx : qy - y0 = qy - (y0 + 1) + 1 := by omega
      simp [inSprite, inRow, hq, hlo, hhi, hidx]
    · simp [inSprite, inRow, hq, hlo, hbelow]

/-- One row: the column `p` and then the `k` columns after it; past the right edge no column is on the screen. -/
theorem inverts_drawRow (byte : Byte) (x0 : Nat) {y0 : Nat} (hy : y0 < 32) (k p : Nat) (acc : Display × Bool) :
    Inverts (inRow byte x0 y0 p k) acc (drawRow byte x0 y0 (List.range' p k) acc) := by
  induction k generalizing p acc with
  | zero => exact inverts_refl fun qx qy _ _ => by simp [inRow]
  | succ k ih =>
    rw [List.range'_succ, drawRow]
    by_cases hclip : 64 ≤ x0 + p
    · rw [if_pos hclip]
      refine inverts_refl fun qx qy hx _ => ?_
      have hleft : ¬ x0 + p ≤ qx := by omega
      simp [inRow, hleft]
    · rw [if_neg hclip]
      refine (inverts_setPixel (Nat.not_le.1 hclip) hy _).trans (ih (p + 1) _) (fun qx qy h => ?_)
        (inRow_succ byte x0 y0 p k)
      simp only [inRow, Bool.and_eq_true, decide_eq_true_eq] at h
      obtain ⟨⟨⟨hright, -⟩, -⟩, -⟩ := h
      have hne : qx ≠ x0 + p := by omega
      simp [hne]

/-- The rows: the first and then the rest below it; past the bottom edge no row is on the screen. -/
theorem inverts_drawRows (x0 y0 : Nat) (bytes : List Byte) (acc : Display × Bool) :
    Inverts (inSprite x0 y0 bytes) acc (drawRows x0 y0 bytes acc) := by
  induction bytes generalizing y0 acc with
  | nil => exact inverts_refl fun qx qy _ _ => by simp [inSprite]
  | cons byte bytes ih =>
    rw [drawRows]
    by_cases hclip : 32 ≤ y0
    · rw [if_pos hclip]
      refine inverts_refl fun qx qy _ hy => ?_
      have habove : ¬ y0 ≤ qy := by omega
      simp [inSprite, habove]
    · rw [if_neg hclip]
      refine (inverts_drawRow byte x0 (Nat.not_le.1 hclip) 8 0 acc).trans (ih (y0 + 1) _) (fun qx qy h => ?_)
        (inSprite_cons x0 y0 byte bytes)
      simp only [inSprite, Bool.and_eq_true, decide_eq_true_eq] at h
      obtain ⟨⟨⟨-, hbelow⟩, -⟩, -⟩ := h
      have hne : qy ≠ y0 := by omega
      simp [inRow, hne]

end Sys2Proof.Machine

namespace Sys2Proof.Safety

open Sys2Proof.Machine

variable {s : State} {x y : Reg} {n : Fin 16}

/-! ## CLS -/

theorem decodeWord_eq_cls_iff (w : Word) : decodeWord w = .cls ↔ w = 0x00E0 := by
  constructor
  · intro h
    obtain ⟨-, hw⟩ := encodeInvertsDecode w
    rw [← hw, h]
    rfl
  · rintro rfl
    rfl

/-- Settles O52: the new display is the clear one. -/
theorem clearScreenUnsetsEveryPixel : Obligations.ClearScreenUnsetsEveryPixel :=
  ⟨decodeWord_eq_cls_iff, fun _ => ⟨_, rfl, Display.pixel_clear, rfl, fun _ _ => rfl, fun _ => rfl⟩⟩

/-! ## DrawSprite -/

theorem covered_eq_inSprite (x y : Byte) (bytes : List Byte) :
    covered x y bytes = inSprite (x.toNat % 64) (y.toNat % 32) bytes := rfl

/-- Settles O53: the rows from the wrapped anchor down, with no collision before the first. -/
theorem drawSpriteIsXorOfTheClippedSprite : Obligations.DrawSpriteIsXorOfTheClippedSprite := by
  intro d x y bytes
  rw [covered_eq_inSprite]
  obtain ⟨hpixel, hflag⟩ := inverts_drawRows (x.toNat % 64) (y.toNat % 32) bytes (d, false)
  exact ⟨hpixel, hflag.trans (or_iff_right Bool.false_ne_true)⟩

/-- The second drawing inverts the same pixels again. -/
theorem drawSprite_drawSprite (d : Display) (x y : Byte) (bytes : List Byte) :
    (drawSprite (drawSprite d x y bytes).1 x y bytes).1 = d := by
  refine Display.ext_pixel fun px py hx hy => ?_
  obtain ⟨hfirst, -⟩ := drawSpriteIsXorOfTheClippedSprite d x y bytes
  obtain ⟨hsecond, -⟩ := drawSpriteIsXorOfTheClippedSprite (drawSprite d x y bytes).1 x y bytes
  rw [hsecond px py hx hy, hfirst px py hx hy, Bool.xor_assoc, Bool.xor_self, Bool.xor_false]

/-- On a clear display the first drawing sets the pixels of the sprite, so the second collides with each of them. -/
theorem drawSprite_drawSprite_collides_iff {d : Display} (hclear : ∀ px py, d.pixel px py = false) (x y : Byte)
    (bytes : List Byte) : (drawSprite (drawSprite d x y bytes).1 x y bytes).2 = true ↔
      ∃ px py, px < 64 ∧ py < 32 ∧ covered x y bytes px py = true := by
  obtain ⟨hfirst, -⟩ := drawSpriteIsXorOfTheClippedSprite d x y bytes
  obtain ⟨-, hcollides⟩ := drawSpriteIsXorOfTheClippedSprite (drawSprite d x y bytes).1 x y bytes
  refine hcollides.trans (exists₂_congr fun px py => and_congr_right fun hx => and_congr_right fun hy => ?_)
  rw [hfirst px py hx hy, hclear, Bool.false_xor, and_self]

/-! ## DRW -/

theorem collisionFlag_eq_one_iff (c : Bool) : collisionFlag c = 1 ↔ c = true := by
  cases c <;> decide

/-- What DRW draws: the `n` bytes from I at (V[x], V[y]). -/
def drawnBy (x y : Reg) (n : Fin 16) (s : State) : Display × Bool :=
  drawSprite s.display (s.reg x) (s.reg y) ((List.range n.val).map fun k => s.readByte (s.i.toNat + k))

/-- DRW with its bytes inside the address space takes over the drawn display and writes the flag. -/
theorem exec_drw_of_le (h : n.val = 0 ∨ s.i.toNat + n.val ≤ 4096) : exec (.drw x y n) s =
    .next (({ s with display := (drawnBy x y n s).1 } : State).setReg vf (collisionFlag (drawnBy x y n s).2)) := by
  obtain ⟨hpos, hout, -⟩ | ⟨-, d, c, hdrawn, he⟩ := execDrw_cases x y n s
  · omega
  · rw [Memory.readRange_eq_map] at hdrawn
    rw [show drawnBy x y n s = (d, c) from hdrawn]
    exact he

/-- Settles O54: the two branches of the bounds check; the flag is the only register write. -/
theorem drawWritesDisplayAndCollision : Obligations.DrawWritesDisplayAndCollision := by
  refine ⟨decodesTo_of_mem (by simp [opcodeRows]) fun _ => rfl, fun x y n s => ⟨fun hin => ?_, fun hn hout => ?_⟩⟩
  · have hfits : n.val = 0 ∨ s.i.toNat + n.val ≤ 4096 := hin.imp (congrArg Fin.val) (by omega)
    exact ⟨_, exec_drw_of_le hfits, rfl, State.reg_setReg_same _ vf _, rfl,
      fun _ hr => State.reg_setReg_other _ (List.ne_of_not_mem_cons hr) _, fun _ => rfl⟩
  · exact takesFault_of_out_of_bounds rfl rfl (Nat.pos_of_ne_zero (Fin.val_ne_of_ne hn)) (by omega)

/-- Settles O55: a DRW that keeps V[x], V[y], I and memory draws the same sprite at the same place again. -/
theorem drawingTwiceRestoresTheDisplay : Obligations.DrawingTwiceRestoresTheDisplay := by
  intro x y n s t hx hy hin hfirst
  obtain ⟨-, hdraw⟩ := drawWritesDisplayAndCollision
  obtain ⟨t', he, hdisplay, -, ht, hregs, hmem⟩ := (hdraw x y n s).1 hin
  obtain rfl := nextState_unique hfirst he
  have hi : t.i = s.i := by rw [ht]
  obtain ⟨u, hsecond, hdisplay', hflag, -⟩ := (hdraw x y n t).1 (hi ▸ hin)
  have hmem' : t.readByte = s.readByte := funext hmem
  rw [hi, hmem', hregs x (by simpa using hx), hregs y (by simpa using hy), hdisplay] at hdisplay' hflag
  refine ⟨u, hsecond, hdisplay'.trans (drawSprite_drawSprite _ _ _ _), fun hclear => ?_⟩
  rw [hflag]
  exact (collisionFlag_eq_one_iff _).trans (drawSprite_drawSprite_collides_iff hclear _ _ _)

end Sys2Proof.Safety
end

section
/-! SUPPORT. The keypad, the key wait and FX0A (44_keys_timers.md R180, R181, R187), and the cycle
where PC can be fetched from (20_memory.md R51). -/

namespace Sys2Proof.Machine

variable {s : State} {k : Fin 16}

/-! ## The keypad -/

theorem State.pressed_eq_getD (s : State) (v : Byte) : s.pressed v = s.keys[v.toNat]?.getD false := by
  unfold State.pressed
  split <;> rename_i h <;> simp [h]

/-- The key code that FX0A stores is the number of the key. -/
theorem toNat_keyCode (k : Fin 16) : (BitVec.ofNat 8 k.val : Byte).toNat = k.val :=
  Nat.mod_eq_of_lt (k.isLt.trans (by decide))

/-! ## Edges and the key wait -/

theorem KeyWait.onPress_of_ne {kw : KeyWait} (h : kw ≠ .waitingForPress) (k : Fin 16) : kw.onPress k = kw := by
  cases kw with
  | waitingForPress => exact absurd rfl h
  | idle | waitingForRelease j r => rfl

@[simp] theorem KeyWait.onRelease_same (k : Fin 16) :
    (KeyWait.waitingForRelease k false).onRelease k = .waitingForRelease k true := by
  simp [KeyWait.onRelease]

theorem KeyWait.onRelease_of_ne {kw : KeyWait} (h : kw ≠ .waitingForRelease k false) : kw.onRelease k = kw := by
  cases kw with
  | idle | waitingForPress => rfl
  | waitingForRelease j r =>
    cases r with
    | true => rfl
    | false =>
      have hj : j ≠ k := fun hjk => h (by rw [hjk])
      simp [KeyWait.onRelease, hj]

/-- A press and the release of the same key complete a wait, and the key is up after them. -/
theorem State.deliverEdges_press_release (h : s.kw = .waitingForPress) (k : Fin 16) :
    (s.deliverEdges [.press k, .release k]).kw = .waitingForRelease k true ∧
    (s.deliverEdges [.press k, .release k]).keys[k.val]? = some false := by
  simp [State.deliverEdges, State.deliverEdge, KeyWait.onPress, h]

/-! What a pass has done to the state before its CPU cadence. -/

@[simp] theorem State.beforeCpu_kw (s : State) (p : PassInput) :
    (s.beforeCpu p).kw = (s.deliverEdges p.edges).kw := by
  rw [s.beforeCpu_eq p]

@[simp] theorem State.beforeCpu_keys (s : State) (p : PassInput) :
    (s.beforeCpu p).keys = (s.deliverEdges p.edges).keys := by
  rw [s.beforeCpu_eq p]

@[simp] theorem State.reg_beforeCpu (s : State) (p : PassInput) (r : Reg) : (s.beforeCpu p).reg r = s.reg r := by
  rw [s.beforeCpu_eq p]
  rfl

@[simp] theorem State.readByte_beforeCpu (s : State) (p : PassInput) (a : Nat) :
    (s.beforeCpu p).readByte a = s.readByte a := by
  rw [s.beforeCpu_eq p]
  rfl

/-! ## FX0A -/

theorem exec_ldVxK_of_idle (h : s.kw = .idle) (x : Reg) :
    exec (.ldVxK x) s = .next { s with kw := .waitingForPress, pc := s.pc - 2 } := by
  simp [exec, execLdVxK, h]

theorem exec_ldVxK_of_held (h : s.kw = .waitingForPress ∨ ∃ k, s.kw = .waitingForRelease k false) (x : Reg) :
    exec (.ldVxK x) s = .next (s.setPc (s.pc - 2)) := by
  obtain h | ⟨k, h⟩ := h <;> simp [exec, execLdVxK, h]

theorem exec_ldVxK_of_released (h : s.kw = .waitingForRelease k true) (x : Reg) :
    exec (.ldVxK x) s = .next (({ s with kw := .idle } : State).setReg x (BitVec.ofNat 8 k.val)) := by
  simp [exec, execLdVxK, h]

/-- FX0A goes back to its own address, changing at most KW besides, or ends the wait. -/
theorem exec_ldVxK_holds_or_ends (x : Reg) (s : State) :
    (∃ kw, exec (.ldVxK x) s = .next { s with kw := kw, pc := s.pc - 2 }) ∨
    (∃ t, exec (.ldVxK x) s = .next t ∧ t.kw = .idle) := by
  cases h : s.kw with
  | idle => exact .inl ⟨_, exec_ldVxK_of_idle h x⟩
  | waitingForPress => exact .inl ⟨s.kw, exec_ldVxK_of_held (.inl h) x⟩
  | waitingForRelease k released =>
    cases released with
    | false => exact .inl ⟨s.kw, exec_ldVxK_of_held (.inr ⟨k, h⟩) x⟩
    | true => exact .inr ⟨_, exec_ldVxK_of_released h x, rfl⟩

end Sys2Proof.Machine

namespace Sys2Proof.Safety

open Sys2Proof.Machine

variable {s : State}

/-! ## The cycle -/

/-- A cycle whose two bytes lie in the address space executes the word at PC. -/
theorem cycle_of_le (h : s.pc.toNat + 1 ≤ 4095) :
    cycle s = exec (decodeWord (wordAtPc s)) (s.setPc (s.pc + 2)) := by
  obtain ⟨hout, -⟩ | ⟨-, e⟩ := fetch_cases s
  · omega
  · simp only [cycle, e]
    rfl

/-- A cycle whose fetch leaves the address space takes a fault and changes nothing else. -/
theorem cycle_of_gt (h : 4095 < s.pc.toNat + 1) : ∃ f, cycle s = .next { s with status := .faulted f } := by
  obtain ⟨-, e⟩ | ⟨hin, -⟩ := fetch_cases s
  · exact ⟨_, by simp only [cycle, e]; rfl⟩
  · omega

/-- The pass of an unthrottled running core executes the word at PC on the state before the CPU cadence. -/
theorem step_executes_wordAtPc {p : PassInput} {rest : List Input} (hs : s.status = .running)
    (hn : NextIsPass s p rest) (hq : p.quit = false) (hfree : s.throttlePeriod = none)
    (hpc : s.pc.toNat + 1 ≤ 4095) :
    step s = exec (decodeWord (wordAtPc s))
      ((State.beforeCpu { s with inputs := rest, clock := sampleOf s p } p).setPc (s.pc + 2)) := by
  have hb := State.beforeCpu_eq { s with inputs := rest, clock := sampleOf s p } p
  obtain ⟨hquit, -⟩ | ⟨-, hpass⟩ := runningPass_cases p { s with inputs := rest, clock := sampleOf s p }
  · rw [hq] at hquit
    cases hquit
  rw [step_running s hs hn]
  refine hpass.trans ?_
  rw [hb]
  obtain ⟨-, hcpu⟩ | ⟨period, hthrottled, -⟩ := cpuCadence_cases _ _
  · exact hcpu.trans (cycle_of_le hpc)
  · exact absurd (hfree.symm.trans hthrottled) nofun

end Sys2Proof.Safety
end

section
/-! SUPPORT. The key-wait invariant over each part of a step (44_keys_timers.md R188): FX0A alone starts a wait, and it
holds PC on itself until it ends the wait. -/

namespace Sys2Proof.Safety

open Sys2Proof.Machine

variable {s t : State}

/-- Only FX0A writes KW. -/
theorem exec_keeps_kw {i : Instr} (hi : ∀ x, i ≠ .ldVxK x) (he : exec i s = .next t) : t.kw = s.kw := by
  have unwritten : .keyWait ∉ writes i := by
    cases i with
    | ldVxK x => exact absurd rfl (hi x)
    | _ => simp [writes]
  cases hf : raisedFault i s with
  | some f =>
    obtain rfl := nextState_unique (exec_eq_raise hf) he
    rfl
  | none => exact exec_keepsBut_writes hf he .keyWait unwritten

theorem KeyWaitInv.of_idle (h : s.kw = .idle) : KeyWaitInv s := fun hkw => absurd h hkw

/-- The invariant looks at memory and PC, and at whether KW is Idle. -/
theorem KeyWaitInv.congr (h : KeyWaitInv s) (hmem : t.mem = s.mem) (hpc : t.pc = s.pc)
    (hkw : t.kw = .idle ↔ s.kw = .idle) : KeyWaitInv t := by
  unfold KeyWaitInv wordAtPc State.readByte
  rw [hmem, hpc, Ne, hkw]
  exact h

/-- Where FX0A stands at PC, a cycle that holds there or ends the wait meets the invariant. -/
theorem keyWaitInv_of_cycle_ldVxK {x : Reg} (hpc : s.pc.toNat + 1 ≤ 4095) (hw : decodeWord (wordAtPc s) = .ldVxK x)
    (he : cycle s = .next t) : KeyWaitInv t := by
  rw [cycle_of_le hpc, hw] at he
  obtain ⟨kw, e⟩ | ⟨t', e, hidle⟩ := exec_ldVxK_holds_or_ends x (s.setPc (s.pc + 2))
  · have hstay : s.pc + 2 - 2 = s.pc := BitVec.add_sub_cancel _ _
    rw [State.setPc_pc, hstay] at e
    obtain rfl := nextState_unique e he
    exact fun _ => ⟨hpc, x, hw⟩
  · obtain rfl := nextState_unique e he
    exact .of_idle hidle

/-- A wait is on only at FX0A, so every other instruction finds KW Idle and leaves it so. -/
theorem KeyWaitInv.cycle (h : KeyWaitInv s) (he : cycle s = .next t) : KeyWaitInv t := by
  by_cases hpc : s.pc.toNat + 1 ≤ 4095
  · by_cases hw : ∃ x, decodeWord (wordAtPc s) = .ldVxK x
    · obtain ⟨x, hw⟩ := hw
      exact keyWaitInv_of_cycle_ldVxK hpc hw he
    · have hidle : s.kw = .idle := by
        by_contra hkw
        obtain ⟨-, hword⟩ := h hkw
        exact hw hword
      rw [cycle_of_le hpc] at he
      exact .of_idle ((exec_keeps_kw (not_exists.1 hw) he).trans hidle)
  · obtain ⟨f, e⟩ := cycle_of_gt (Nat.lt_of_not_le hpc)
    obtain rfl := nextState_unique e he
    exact h

theorem KeyWaitInv.deliverEdges (h : KeyWaitInv s) (edges : List KeyEdge) : KeyWaitInv (s.deliverEdges edges) :=
  h.congr (by rw [s.deliverEdges_eq]) (by rw [s.deliverEdges_eq]) (s.deliverEdges_kw_idle edges)

theorem KeyWaitInv.beforeCpu (h : KeyWaitInv s) (p : PassInput) : KeyWaitInv (s.beforeCpu p) := by
  rw [s.beforeCpu_eq p]
  exact h.congr rfl rfl (s.deliverEdges_kw_idle p.edges)

theorem KeyWaitInv.cpuCadence {now : Nat} (h : KeyWaitInv s) (he : cpuCadence now s = .next t) : KeyWaitInv t := by
  obtain ⟨-, e⟩ | ⟨period, -, ⟨-, e⟩ | ⟨-, e⟩⟩ := cpuCadence_cases s now
  · exact h.cycle (e.symm.trans he)
  · exact KeyWaitInv.cycle (s := { s with lastCpu := now }) h (e.symm.trans he)
  · obtain rfl := nextState_unique e he
    exact h

theorem KeyWaitInv.runningPass {p : PassInput} (h : KeyWaitInv s) (he : runningPass p s = .next t) :
    KeyWaitInv t := by
  obtain ⟨-, e⟩ | ⟨-, e⟩ := runningPass_cases p s
  · obtain rfl := nextState_unique e he
    exact h.deliverEdges p.edges
  · exact (h.beforeCpu p).cpuCadence (e.symm.trans he)

/-- An accepted reset leaves KW Idle, a rejected one changes nothing that the invariant looks at. -/
theorem KeyWaitInv.resetSession (h : KeyWaitInv s) (r : ResetRequest) : KeyWaitInv (s.resetSession r) := by
  unfold State.resetSession
  cases openSession r.fields r.params with
  | error field => exact h
  | ok c => exact .of_idle rfl

/-- Settles O23: each kind of step keeps the invariant, passes of a running core by `KeyWaitInv.runningPass`. -/
theorem stepKeepsTheKeyWaitInvariant : Obligations.StepKeepsTheKeyWaitInvariant := by
  intro s t h he
  obtain ⟨p, rest, -, ⟨-, e⟩ | ⟨-, e⟩⟩ | ⟨r, rest, -, e⟩ := step_cases s
  · exact KeyWaitInv.runningPass (s := { s with inputs := rest, clock := s.clock + p.advance }) h (e.symm.trans he)
  · obtain rfl := nextState_unique e he
    exact h
  · obtain rfl := nextState_unique e he
    exact KeyWaitInv.resetSession (s := { s with inputs := rest }) h r

end Sys2Proof.Safety
end

section
/-! SUPPORT. The key skips, the timer instructions, the key wait and the key edges (44_keys_timers.md R180 to R187). -/

namespace Sys2Proof.Safety

open Sys2Proof.Machine

/-! ## SKP and SKNP -/

/-- What R180 calls pressed: the keypad at a key code, and never for a value of 16 or more. -/
theorem pressed_of_keypad {s : State} {v : Byte} {down : Bool}
    (h : (16 ≤ v.toNat ∧ down = false) ∨ s.keys[v.toNat]? = some down) : s.pressed v = down := by
  rw [s.pressed_eq_getD]
  obtain ⟨hv, rfl⟩ | h := h
  · rw [Vector.getElem?_eq_none hv]
    rfl
  · rw [h]
    rfl

/-- Settles O56: both instructions are skips on `pressed`. -/
theorem keySkipsTestTheKeypad : Obligations.KeySkipsTestTheKeypad := by
  refine ⟨decodesTo_of_mem (by simp [opcodeRows]) fun _ => rfl, decodesTo_of_mem (by simp [opcodeRows]) fun _ => rfl,
    fun x s down h => ⟨⟨_, rfl, changesOnlyPc_skipIf s _, ?_⟩, ⟨_, rfl, changesOnlyPc_skipIf s _, ?_⟩⟩⟩
  · rw [s.toNat_pc_skipIf, pressed_of_keypad h]
  · rw [s.toNat_pc_skipIf, pressed_of_keypad h]
    cases down <;> rfl

/-! ## FX07, FX15, FX18 -/

/-- Settles O57: FX07 is a register write, FX15 and FX18 are a write of one timer. -/
theorem timerInstructionsMoveTheTimers : Obligations.TimerInstructionsMoveTheTimers :=
  ⟨decodesTo_of_mem (by simp [opcodeRows]) fun _ => rfl, decodesTo_of_mem (by simp [opcodeRows]) fun _ => rfl,
    decodesTo_of_mem (by simp [opcodeRows]) fun _ => rfl,
    fun x s => ⟨⟨_, rfl, s.reg_setReg_same x _, changesOnlyRegs_setReg s x _⟩,
      ⟨_, rfl, rfl, rfl, fun _ _ => rfl, fun _ => rfl⟩, ⟨_, rfl, rfl, rfl, rfl, fun _ _ => rfl, fun _ => rfl⟩⟩⟩

/-! ## FX0A -/

/-- Settles O58: FX0A by the key-wait state it finds. -/
theorem keyWaitHoldsThenStoresTheKey : Obligations.KeyWaitHoldsThenStoresTheKey := by
  refine ⟨decodesTo_of_mem (by simp [opcodeRows]) fun _ => rfl, fun x s => ⟨fun h => ?_, fun h => ?_, fun k h => ?_⟩⟩
  · exact ⟨_, exec_ldVxK_of_idle h x, rfl, fun _ _ => rfl, fun _ => rfl⟩
  · exact ⟨_, exec_ldVxK_of_held h x, rfl, changesOnlyPc_setPc s _⟩
  · refine ⟨_, exec_ldVxK_of_released h x, ?_, rfl, fun _ hr =>
      State.reg_setReg_other _ (List.ne_of_not_mem_cons hr) _, fun _ => rfl⟩
    rw [State.reg_setReg_same, toNat_keyCode]

/-! ## Key edges -/

/-- Settles O59: an edge writes one key, and moves KW where KW waits for that edge. -/
theorem keyEdgesUpdateKeypadAndWait : Obligations.KeyEdgesUpdateKeypadAndWait := by
  intro s k
  constructor
  · exact ⟨_, rfl, Vector.getElem?_set_self k.isLt, fun _ hj => Vector.getElem?_set_ne k.isLt hj.symm,
      fun hkw => congrArg (KeyWait.onPress · k) hkw, fun hkw => KeyWait.onPress_of_ne hkw k, rfl⟩
  · exact ⟨_, rfl, Vector.getElem?_set_self k.isLt, fun _ hj => Vector.getElem?_set_ne k.isLt hj.symm,
      fun hkw => (congrArg (KeyWait.onRelease · k) hkw).trans (KeyWait.onRelease_same k), KeyWait.onRelease_of_ne, rfl⟩

/-! ## A wait that one pass completes -/

/-- Settles O60: the edges complete the wait before the CPU cadence, in which FX0A stores the key. -/
theorem pressAndReleaseInOnePassCompleteTheWait : Obligations.PressAndReleaseInOnePassCompleteTheWait := by
  intro s x k advance rest hs hfree hkw hpc hw hin
  have hstep := step_executes_wordAtPc hs (.inl hin) rfl hfree hpc
  obtain ⟨hreleased, hup⟩ := State.deliverEdges_press_release
    (s := { s with inputs := rest, clock := s.clock + advance }) hkw k
  rw [hw, exec_ldVxK_of_released ((State.setPc_kw _ _).trans ((State.beforeCpu_kw _ _).trans hreleased))] at hstep
  refine ⟨_, hstep, ?_, rfl, rfl, fun r hr => ?_, fun a => ?_, ?_⟩
  · rw [State.reg_setReg_same, toNat_keyCode]
  · exact (State.reg_setReg_other _ (List.ne_of_not_mem_cons hr) _).trans (State.reg_beforeCpu _ _ r)
  · exact State.readByte_beforeCpu _ _ a
  · rw [State.reg_setReg_same]
    refine pressed_of_keypad (.inr ?_)
    rw [toNat_keyCode]
    exact (congrArg (·[k.val]?) (State.beforeCpu_keys _ _)).trans hup

end Sys2Proof.Safety
end

section
/-! SUPPORT. What one cycle, one pass and one step of a running core can do (60_exceptions.md R203, R220, R224). -/

namespace Sys2Proof.Machine

@[simp] theorem State.beforeCpu_status (s : State) (p : PassInput) : (s.beforeCpu p).status = s.status := by
  rw [s.beforeCpu_eq p]

@[simp] theorem State.beforeCpu_diag (s : State) (p : PassInput) : (s.beforeCpu p).diag = s.diag := by
  rw [s.beforeCpu_eq p]

@[simp] theorem State.deliverEdges_diag (s : State) (edges : List KeyEdge) : (s.deliverEdges edges).diag = s.diag := by
  rw [s.deliverEdges_eq edges]

/-- A tone follows a tick exactly where the sound timer stood above 1 (60_exceptions.md R222). -/
theorem countDown_bne_zero (t : Byte) : (countDown t != 0) = decide (1 < t.toNat) := by
  have hzero : countDown t = 0 ↔ t.toNat - 1 = 0 := by
    rw [← BitVec.toNat_inj, toNat_countDown]
    rfl
  rw [bne, beq_eq_decide, ← decide_not, decide_eq_decide, hzero]
  omega

/-! The timers, the tone and the frame output of a pass before its CPU cadence. -/

theorem State.toNat_dt_beforeCpu (s : State) (p : PassInput) : (s.beforeCpu p).dt.toNat =
    if s.cfg.timerPeriod ≤ s.clock - s.lastTimer then s.dt.toNat - 1 else s.dt.toNat := by
  rw [s.beforeCpu_eq p, ← toNat_countDown]
  exact apply_ite ..

theorem State.toNat_st_beforeCpu (s : State) (p : PassInput) : (s.beforeCpu p).st.toNat =
    if s.cfg.timerPeriod ≤ s.clock - s.lastTimer then s.st.toNat - 1 else s.st.toNat := by
  rw [s.beforeCpu_eq p, ← toNat_countDown]
  exact apply_ite ..

theorem State.beforeCpu_tone (s : State) (p : PassInput) : (s.beforeCpu p).tone =
    if s.cfg.timerPeriod ≤ s.clock - s.lastTimer then decide (1 < s.st.toNat) else s.tone := by
  rw [s.beforeCpu_eq p, ← countDown_bne_zero]

theorem State.beforeCpu_lastTimer (s : State) (p : PassInput) : (s.beforeCpu p).lastTimer =
    if s.cfg.timerPeriod ≤ s.clock - s.lastTimer then s.clock else s.lastTimer := by
  rw [s.beforeCpu_eq p]

theorem State.beforeCpu_frames (s : State) (p : PassInput) : (s.beforeCpu p).frames =
    s.frames ++ if s.cfg.framePeriod ≤ s.clock - s.lastFrame then [s.display] else [] := by
  rw [s.beforeCpu_eq p, apply_ite (s.frames ++ ·), List.append_nil]

theorem State.beforeCpu_lastFrame (s : State) (p : PassInput) : (s.beforeCpu p).lastFrame =
    if s.cfg.framePeriod ≤ s.clock - s.lastFrame then s.clock else s.lastFrame := by
  rw [s.beforeCpu_eq p]

/-! The CPU cadence by the period that gates it. -/

@[simp] theorem State.beforeCpu_lastCpu (s : State) (p : PassInput) : (s.beforeCpu p).lastCpu = s.lastCpu := by
  rw [s.beforeCpu_eq p]

@[simp] theorem State.beforeCpu_throttlePeriod (s : State) (p : PassInput) :
    (s.beforeCpu p).throttlePeriod = s.throttlePeriod := by
  rw [s.beforeCpu_eq p]
  rfl

theorem State.throttlePeriod_eq_none {s : State} (h : s.cfg.throttle = false ∨ s.cfg.cpuPeriod = none) :
    s.throttlePeriod = none := by
  obtain h | h := h <;> simp [State.throttlePeriod, h]

theorem State.throttlePeriod_eq_some {s : State} {period : Nat} (hthrottle : s.cfg.throttle = true)
    (hperiod : s.cfg.cpuPeriod = some period) : s.throttlePeriod = some period := by
  simp [State.throttlePeriod, hthrottle, hperiod]

theorem cpuCadence_of_free {s : State} (h : s.throttlePeriod = none) (now : Nat) : cpuCadence now s = cycle s := by
  simp only [cpuCadence, h]

theorem cpuCadence_of_period {s : State} {period : Nat} (h : s.throttlePeriod = some period) (now : Nat) :
    cpuCadence now s = if period ≤ now - s.lastCpu then cycle { s with lastCpu := now } else .next s := by
  simp only [cpuCadence, h]

/-- Edges, timer and frame work move neither the CPU period nor its timestamp. -/
theorem cpuCadence_beforeCpu_of_not_due {s : State} {p : PassInput} {period now : Nat}
    (h : s.throttlePeriod = some period) (hwait : now - s.lastCpu < period) :
    cpuCadence now (s.beforeCpu p) = .next (s.beforeCpu p) := by
  rw [cpuCadence_of_period ((s.beforeCpu_throttlePeriod p).trans h), s.beforeCpu_lastCpu,
    if_neg (Nat.not_le_of_lt hwait)]

/-- Stamping the CPU timestamp on a condition changes that field only. -/
theorem State.stampCpu_eq (s : State) (b : Bool) (now : Nat) :
    (if b then { s with lastCpu := now } else s) = { s with lastCpu := if b then now else s.lastCpu } := by
  cases b <;> rfl

/-- A due CPU cadence runs one cycle, stamped where the core is throttled. -/
theorem cpuCadence_of_due {s : State} {now : Nat}
    (h : ∀ period, s.throttlePeriod = some period → period ≤ now - s.lastCpu) :
    cpuCadence now s = cycle (if s.throttlePeriod.isSome then { s with lastCpu := now } else s) := by
  obtain ⟨hfree, e⟩ | ⟨period, hperiod, ⟨-, e⟩ | ⟨hnot, -⟩⟩ := cpuCadence_cases s now
  · rw [e, hfree]
    rfl
  · rw [e, hperiod]
    rfl
  · exact absurd (h period hperiod) hnot

/-- The CPU cadence answers what a cycle answers, or leaves the state as it is. -/
theorem cpuCadence_runs_cycle_or_keeps (now : Nat) (s : State) :
    (∃ last, cpuCadence now s = cycle { s with lastCpu := last }) ∨ cpuCadence now s = .next s := by
  obtain ⟨-, e⟩ | ⟨period, -, ⟨-, e⟩ | ⟨-, e⟩⟩ := cpuCadence_cases s now
  · exact .inl ⟨s.lastCpu, e⟩
  · exact .inl ⟨now, e⟩
  · exact .inr e

end Sys2Proof.Machine

namespace Sys2Proof.Safety

open Sys2Proof.Machine

variable {s t : State} {f : Fault}

theorem wordAtPc_beforeCpu (s : State) (p : PassInput) : wordAtPc (s.beforeCpu p) = wordAtPc s := by
  rw [s.beforeCpu_eq p]
  rfl

/-- A pass without quit of a running core comes to its CPU cadence. -/
theorem step_eq_cpuCadence {p : PassInput} {rest : List Input} (hs : s.status = .running)
    (hn : NextIsPass s p rest) (hq : p.quit = false) :
    step s = cpuCadence (sampleOf s p) (State.beforeCpu { s with inputs := rest, clock := sampleOf s p } p) := by
  obtain ⟨hquit, -⟩ | ⟨-, e⟩ := runningPass_cases p { s with inputs := rest, clock := sampleOf s p }
  · rw [hq] at hquit
    cases hquit
  · exact (step_running s hs hn).trans e

/-! ## A cycle that faults, and one that completes -/

theorem cycle_of_fetch_error (h : fetch s = .error f) : cycle s = .next { s with status := .faulted f } := by
  simp only [cycle, h]
  rfl

theorem eq_of_fetch_ok {w : Word} (h : fetch s = .ok (w, t)) : w = wordAtPc s ∧ t = s.setPc (s.pc + 2) := by
  obtain ⟨-, e⟩ | ⟨-, e⟩ := fetch_cases s
  · rw [e] at h
    cases h
  · exact Prod.mk.inj (Except.ok.inj (h.symm.trans e))

/-- An instruction that faults undoes the PC advance of its fetch. -/
theorem cycle_of_raisedFault {w : Word} (h : fetch s = .ok (w, t)) (hf : raisedFault (decodeWord w) t = some f) :
    cycle s = .next { s with status := .faulted f } := by
  have hcycle : cycle s = exec (decodeWord w) t := by simp only [cycle, h]
  obtain ⟨-, rfl⟩ := eq_of_fetch_ok h
  have hstay : s.pc + 2 - 2 = s.pc := BitVec.add_sub_cancel _ _
  rw [hcycle, exec_eq_raise hf, State.raise_eq, State.setPc_pc, hstay]
  rfl

/-- A cycle changes nothing but `status`, which holds a fault then, or completes the instruction at PC. -/
theorem cycle_faults_or_completes (s : State) :
    (∃ f, cycle s = .next { s with status := .faulted f }) ∨
    (raisedFault (decodeWord (wordAtPc s)) (s.setPc (s.pc + 2)) = none ∧
      ∃ t, cycle s = .next t ∧ exec (decodeWord (wordAtPc s)) (s.setPc (s.pc + 2)) = .next t) := by
  by_cases hpc : s.pc.toNat + 1 ≤ 4095
  · obtain ⟨hout, -⟩ | ⟨-, hfetch⟩ := fetch_cases s
    · omega
    cases hf : raisedFault (decodeWord (wordAtPc s)) (s.setPc (s.pc + 2)) with
    | some f => exact .inl ⟨f, cycle_of_raisedFault hfetch hf⟩
    | none =>
      obtain ⟨t, he, -⟩ := exec_answersWithin_writes hf
      exact .inr ⟨rfl, t, (cycle_of_le hpc).trans he, he⟩
  · exact .inl (cycle_of_gt (Nat.lt_of_not_le hpc))

/-- A component that the instruction at PC does not write is kept by the cycle, faulting or not; PC and `status` are
the fetch's and the fault's. -/
theorem cycle_keeps_component {c : Component} (hpc : c ≠ .pc) (hmachine : c ≠ .machine)
    (hc : c ∉ writes (decodeWord (wordAtPc s))) (he : cycle s = .next t) : Component.same s t c := by
  obtain ⟨f, e⟩ | ⟨hf, t', e, hexec⟩ := cycle_faults_or_completes s
  · obtain rfl := nextState_unique e he
    have kept := Component.same_refl s c
    cases c with
    | machine => exact absurd rfl hmachine
    | _ => exact kept
  · obtain rfl := nextState_unique e he
    exact Component.same_trans (keepsBut_pc s _ c (by simpa using hpc)) (exec_keepsBut_writes hf hexec c hc)

/-- The CPU cadence adds at most a stamp of `lastCpu` to its cycle. -/
theorem cpuCadence_keeps_component {c : Component} {now : Nat} (hpc : c ≠ .pc) (hmachine : c ≠ .machine)
    (hc : c ∉ writes (decodeWord (wordAtPc s))) (he : cpuCadence now s = .next t) : Component.same s t c := by
  obtain ⟨last, e⟩ | e := cpuCadence_runs_cycle_or_keeps now s
  · have kept := cycle_keeps_component (s := { s with lastCpu := last }) hpc hmachine hc (e.symm.trans he)
    cases c with
    | machine => exact absurd rfl hmachine
    | _ => exact kept
  · obtain rfl := nextState_unique e he
    exact Component.same_refl s c

end Sys2Proof.Safety
end

section
/-! SUPPORT. Errors: which fault an instruction takes, what it leaves unchanged, and how many errors a step can report
(60_exceptions.md R200 to R205). -/

namespace Sys2Proof.Safety

open Sys2Proof.Machine

variable {s t : State}

/-- Settles O10: the fault of `raisedFault`, or the frame of the instruction's row, which leaves `status` out. -/
theorem execRaisesExactlyTheSpecsFaults : Obligations.ExecRaisesExactlyTheSpecsFaults := by
  intro i s
  cases hf : raisedFault i s with
  | some f => exact exec_eq_raise hf
  | none =>
    obtain ⟨t, he, hkeeps⟩ := exec_answersWithin_writes hf
    obtain ⟨-, -, -, -, -, hstatus, -⟩ := hkeeps .machine (machine_notMem_writes i)
    exact ⟨t, he, hstatus⟩

/-! ## The fault port -/

theorem faultPort_eq_some_iff (s : State) (f : Fault) : s.faultPort = some f ↔ s.status = .faulted f := by
  unfold State.faultPort
  cases s.status <;> simp

/-- Settles O12: both kinds of faulting cycle, and the port by `status`. -/
theorem faultChangesOnlyTheStatus : Obligations.FaultChangesOnlyTheStatus := by
  refine fun s f => ⟨?_, faultPort_eq_some_iff s f⟩
  rintro (hfetch | ⟨w, t, hfetch, hf⟩)
  · exact ⟨_, cycle_of_fetch_error hfetch, rfl, rfl⟩
  · exact ⟨_, cycle_of_raisedFault hfetch hf, rfl, rfl⟩

/-! ## At most one error in a pass -/

theorem callTo_reports_at_most_one {target : Word} (he : callTo target s = .next t) :
    t.diag = s.diag ∨ ∃ d, t.diag = s.diag ++ [d] := by
  obtain ⟨-, e⟩ | ⟨-, e⟩ := callTo_cases s target
  · obtain rfl := nextState_unique e he
    exact .inr ⟨_, rfl⟩
  · obtain rfl := nextState_unique e he
    exact .inl rfl

theorem execRet_reports_at_most_one (he : execRet s = .next t) : t.diag = s.diag ∨ ∃ d, t.diag = s.diag ++ [d] := by
  obtain ⟨-, e⟩ | ⟨-, e⟩ := execRet_cases s
  · obtain rfl := nextState_unique e he
    exact .inr ⟨_, rfl⟩
  · obtain rfl := nextState_unique e he
    exact .inl rfl

/-- RET, SYS, CALL and UNSUPPORTED report one diagnostic at most, the others none (60_exceptions.md R202). -/
theorem exec_reports_at_most_one {i : Instr} (h : raisedFault i s = none) (he : exec i s = .next t) :
    t.diag = s.diag ∨ ∃ d, t.diag = s.diag ++ [d] := by
  have unwritten (hd : .diag ∉ writes i) : t.diag = s.diag := exec_keepsBut_writes h he .diag hd
  cases i with
  | ret => exact execRet_reports_at_most_one he
  | sys nnn => exact callTo_reports_at_most_one he
  | call nnn => exact callTo_reports_at_most_one he
  | unsupported w =>
    obtain rfl := Host.Outcome.next.inj he
    exact .inr ⟨_, rfl⟩
  | _ => exact .inl (unwritten (by simp [writes]))

/-- The cycle of a running core answers a next state with one error at most. -/
theorem cycle_oneErrorAtMost (hs : s.status = .running) : ∃ t, cycle s = .next t ∧ OneErrorAtMost s t := by
  obtain ⟨f, e⟩ | ⟨hf, t, e, hexec⟩ := cycle_faults_or_completes s
  · exact ⟨_, e, .inr ⟨hs, .inr ⟨f, rfl⟩, rfl⟩⟩
  · obtain ⟨-, -, -, -, -, hstatus, -⟩ := exec_keepsBut_writes hf hexec .machine (machine_notMem_writes _)
    exact ⟨t, e, .inl ⟨hstatus, exec_reports_at_most_one (s := s.setPc (s.pc + 2)) hf hexec⟩⟩

theorem cpuCadence_oneErrorAtMost (hs : s.status = .running) (now : Nat) :
    ∃ t, cpuCadence now s = .next t ∧ OneErrorAtMost s t := by
  obtain ⟨last, e⟩ | e := cpuCadence_runs_cycle_or_keeps now s
  · obtain ⟨t, hcycle, ht⟩ := cycle_oneErrorAtMost (s := { s with lastCpu := last }) hs
    exact ⟨t, e.trans hcycle, ht⟩
  · exact ⟨s, e, .inl ⟨rfl, .inl rfl⟩⟩

theorem runningPass_oneErrorAtMost (hs : s.status = .running) (p : PassInput) :
    ∃ t, runningPass p s = .next t ∧ OneErrorAtMost s t := by
  obtain ⟨-, e⟩ | ⟨-, e⟩ := runningPass_cases p s
  · exact ⟨_, e, .inr ⟨hs, .inl rfl, s.deliverEdges_diag p.edges⟩⟩
  · obtain ⟨t, hcpu, ht⟩ := cpuCadence_oneErrorAtMost ((s.beforeCpu_status p).trans hs) s.clock
    simp only [OneErrorAtMost, State.beforeCpu_status, State.beforeCpu_diag] at ht
    exact ⟨t, e.trans hcpu, ht⟩

/-- A reset opens a session, or rejects the configuration (70_reset_and_hazards.md R241). -/
theorem resetSession_status (s : State) (r : ResetRequest) : (s.resetSession r).status = .running ∨
    ∃ field, (s.resetSession r).status = .faulted (.configParseError field) := by
  unfold State.resetSession
  cases openSession r.fields r.params with
  | error field => exact .inr ⟨field, rfl⟩
  | ok c => exact .inl rfl

/-- Settles O11: a pass of a running core, a pass of a stopped one, and a reset. -/
theorem everyStepAnswersANextState : Obligations.EveryStepAnswersANextState := by
  intro s
  obtain ⟨p, rest, hn, ⟨hs, e⟩ | ⟨-, e⟩⟩ | ⟨r, rest, hr, e⟩ := step_cases s
  · obtain ⟨t, hpass, ht⟩ :=
      runningPass_oneErrorAtMost (s := { s with inputs := rest, clock := s.clock + p.advance }) hs p
    exact ⟨t, e.trans hpass, .inl ⟨p, rest, hn, ht⟩⟩
  · exact ⟨_, e, .inl ⟨p, rest, hn, .inl ⟨rfl, .inl rfl⟩⟩⟩
  · exact ⟨_, e, .inr ⟨r, rest, hr, resetSession_status _ r⟩⟩

end Sys2Proof.Safety
end

section
/-! SUPPORT. Stopped cores: passes of a core that is Faulted or has quit, and the pass that quits (60_exceptions.md
R203, R226). -/

namespace Sys2Proof.Safety

open Sys2Proof.Machine

variable {s t : State}

theorem run_succ_of_step (h : step s = .next t) (n : Nat) :
    Host.Core.run Sys2Proof.core (n + 1) s = Host.Core.run Sys2Proof.core n t := by
  have hcore : Sys2Proof.core.step s = .next t := h
  simp only [Host.Core.run, hcore]

/-- A pass of a stopped core uses up its input and takes the clock sample. -/
theorem step_of_stopped (hs : s.status ≠ .running) (hpasses : ∀ inp ∈ s.inputs, ∃ p, inp = .pass p) :
    ∃ rest clock, step s = .next { s with inputs := rest, clock := clock } ∧ ∀ inp ∈ rest, ∃ p, inp = .pass p := by
  obtain ⟨p, rest, hn, ⟨hrun, -⟩ | ⟨-, e⟩⟩ | ⟨r, rest, hr, -⟩ := step_cases s
  · exact absurd hrun hs
  · refine ⟨rest, _, e, fun inp hinp => ?_⟩
    obtain hin | ⟨-, -, rfl⟩ := hn
    · exact hpasses inp (hin ▸ List.mem_cons_of_mem _ hinp)
    · cases hinp
  · obtain ⟨p, hp⟩ := hpasses (.reset r) (hr ▸ List.mem_cons_self)
    cases hp

/-- Settles O13, by induction on the number of passes. -/
theorem stoppedCoreIsFrozen : Obligations.StoppedCoreIsFrozen := by
  intro n
  induction n with
  | zero => exact fun s _ _ => ⟨s, rfl, rfl, rfl⟩
  | succ n ih =>
    intro s hs hpasses
    obtain ⟨rest, clock, hstep, hrest⟩ := step_of_stopped hs hpasses
    obtain ⟨t, hrun, ht, hport⟩ := ih { s with inputs := rest, clock := clock } hs hrest
    exact ⟨t, (run_succ_of_step hstep n).trans hrun, ht, hport⟩

/-- Edges look at the keypad and the key wait only, not at the inputs or the clock sample. -/
theorem deliverEdges_withSample (s : State) (edges : List KeyEdge) (rest : List Input) (now : Nat) :
    State.deliverEdges { s with inputs := rest, clock := now } edges =
      { s.deliverEdges edges with inputs := rest, clock := now } := by
  induction edges generalizing s with
  | nil => rfl
  | cons e es ih =>
    cases e with
    | press k => exact ih (s.deliverEdge (.press k))
    | release k => exact ih (s.deliverEdge (.release k))

/-- Settles O14: the quit branch of a pass, after its edges. -/
theorem quitEndsThePassBeforeAnyCadence : Obligations.QuitEndsThePassBeforeAnyCadence := by
  intro s p rest hs hn hq
  obtain ⟨-, e⟩ | ⟨hgo, -⟩ := runningPass_cases p { s with inputs := rest, clock := sampleOf s p }
  · rw [deliverEdges_withSample] at e
    refine ⟨_, (step_running s hs hn).trans e, rfl, rfl, rfl, ?_⟩
    rw [s.deliverEdges_eq p.edges]
  · rw [hq] at hgo
    cases hgo

end Sys2Proof.Safety
end

section
/-! SUPPORT. The scheduler: the timer tick, the CPU cadence, and what a pass does to the timers, the tone and the
frame output (60_exceptions.md R220 to R225). -/

namespace Sys2Proof.Safety

open Sys2Proof.Machine

variable {s t : State}

/-- Settles O15: the fields of one tick. -/
theorem timerTickCountsDownAndSetsTone : Obligations.TimerTickCountsDownAndSetsTone := fun s =>
  ⟨_, rfl, toNat_countDown s.dt, toNat_countDown s.st, bne_iff_ne, rfl⟩

theorem toNat_st_timerTick_iterate (k : Nat) (s : State) : (State.timerTick^[k] s).st.toNat = s.st.toNat - k := by
  induction k with
  | zero => rfl
  | succ k ih =>
    rw [Function.iterate_succ_apply']
    exact (toNat_countDown _).trans (by rw [ih, Nat.sub_sub])

/-- Settles O16: the tone of the last tick follows the sound timer that the ticks before it have left. -/
theorem toneLastsOneTickLessThanTheSoundTimer : Obligations.ToneLastsOneTickLessThanTheSoundTimer := by
  intro k s hk
  obtain ⟨k, rfl⟩ := Nat.exists_eq_add_of_le' hk
  rw [Function.iterate_succ_apply']
  refine (countDown_bne_zero _).trans (decide_eq_decide.2 ?_)
  rw [toNat_st_timerTick_iterate]
  omega

/-- Settles O19: the CPU cadence by the period that gates it. -/
theorem cpuCadenceRunsOneCycleWhenDue : Obligations.CpuCadenceRunsOneCycleWhenDue := by
  refine fun now s => ⟨fun hfree => ?_, fun period hthrottle hperiod => ?_⟩
  · exact cpuCadence_of_free (State.throttlePeriod_eq_none hfree) now
  · exact cpuCadence_of_period (State.throttlePeriod_eq_some hthrottle hperiod) now

/-- Settles O8: the due cadence runs a cycle, which executes the word at PC. -/
theorem stepRunsTheDecodedInstruction : Obligations.StepRunsTheDecodedInstruction := by
  intro s p rest i hs hn hq b c hdue hpc hdecode
  have hclock : b.clock = sampleOf s p := State.beforeCpu_clock _ p
  have hc : c = { b with lastCpu := if b.throttlePeriod.isSome then b.clock else b.lastCpu } := b.stampCpu_eq _ _
  have hpc' : c.pc.toNat + 1 ≤ 4095 := by rwa [hc]
  have hword : decodeWord (wordAtPc c) = i := by
    rw [hc]
    exact congrArg Prod.fst (Except.ok.inj hdecode)
  calc step s = cpuCadence b.clock b := (step_eq_cpuCadence hs hn hq).trans (congrArg (cpuCadence · b) hclock.symm)
    _ = cycle c := cpuCadence_of_due hdue
    _ = exec (decodeWord (wordAtPc c)) (c.setPc (c.pc + 2)) := cycle_of_le hpc'
    _ = exec i (c.setPc (c.pc + 2)) := by rw [hword]

/-! ## Timers, tone and frames of a pass -/

/-- The outputs of the timer and frame cadences are the same in both states. -/
structure SameTimerAndFrameOutput (s t : State) : Prop where
  tone      : t.tone = s.tone
  lastTimer : t.lastTimer = s.lastTimer
  lastFrame : t.lastFrame = s.lastFrame
  frames    : t.frames = s.frames

/-- No cycle touches the outputs of the timer and frame cadences. -/
theorem cycle_sameTimerAndFrameOutput (he : cycle s = .next t) : SameTimerAndFrameOutput s t := by
  obtain ⟨f, e⟩ | ⟨hf, t', e, hexec⟩ := cycle_faults_or_completes s
  · obtain rfl := nextState_unique e he
    exact ⟨rfl, rfl, rfl, rfl⟩
  · obtain rfl := nextState_unique e he
    obtain ⟨-, htone, htimer, hframe, -, -, -, -, -, hframes⟩ :=
      exec_keepsBut_writes hf hexec .machine (machine_notMem_writes _)
    exact ⟨htone, htimer, hframe, hframes⟩

/-- The CPU cadence keeps the outputs of the other two. -/
theorem cpuCadence_sameTimerAndFrameOutput {now : Nat} (he : cpuCadence now s = .next t) :
    SameTimerAndFrameOutput s t := by
  obtain ⟨last, e⟩ | e := cpuCadence_runs_cycle_or_keeps now s
  · obtain ⟨htone, htimer, hframe, hframes⟩ := cycle_sameTimerAndFrameOutput (e.symm.trans he)
    exact ⟨htone, htimer, hframe, hframes⟩
  · obtain rfl := nextState_unique e he
    exact ⟨rfl, rfl, rfl, rfl⟩

theorem delay_notMem_writes {i : Instr} (hi : ∀ x, i ≠ .ldDt x) : .delay ∉ writes i := by
  cases i with
  | ldDt x => exact absurd rfl (hi x)
  | _ => simp [writes]

theorem sound_notMem_writes {i : Instr} (hi : ∀ x, i ≠ .ldSt x) : .sound ∉ writes i := by
  cases i with
  | ldSt x => exact absurd rfl (hi x)
  | _ => simp [writes]

/-- Settles O17: the timer and frame work stands before the CPU cadence, which keeps it. -/
theorem passDoesTimerAndFrameWorkOnce : Obligations.PassDoesTimerAndFrameWorkOnce := by
  intro s t p rest hs hn hq he now b dt st
  have hcpu : cpuCadence now b = .next t := (step_eq_cpuCadence hs hn hq).symm.trans he
  have hword : wordAtPc b = wordAtPc s := wordAtPc_beforeCpu _ p
  have hdt : b.dt.toNat = dt := State.toNat_dt_beforeCpu _ p
  have hst : b.st.toNat = st := State.toNat_st_beforeCpu _ p
  obtain ⟨htone, htimer, hframe, hframes⟩ := cpuCadence_sameTimerAndFrameOutput hcpu
  refine ⟨hdt, hst, fun hi => ?_, fun hi => ?_, ?_, ?_, ?_, ?_⟩
  · have hkept : t.dt = b.dt := cpuCadence_keeps_component (c := .delay) nofun nofun
      (delay_notMem_writes (by rwa [hword])) hcpu
    rw [hkept, hdt]
  · have hkept : t.st = b.st := cpuCadence_keeps_component (c := .sound) nofun nofun
      (sound_notMem_writes (by rwa [hword])) hcpu
    rw [hkept, hst]
  · exact htone.trans (State.beforeCpu_tone _ p)
  · exact htimer.trans (State.beforeCpu_lastTimer _ p)
  · exact hframes.trans (State.beforeCpu_frames _ p)
  · exact hframe.trans (State.beforeCpu_lastFrame _ p)

/-- Settles O18: the pass answers the state before its CPU cadence. -/
theorem throttledPassNotDueRunsNoInstruction : Obligations.ThrottledPassNotDueRunsNoInstruction := by
  intro s p rest period hs hn hq hthrottle hperiod hwait
  have hidle := cpuCadence_beforeCpu_of_not_due (s := { s with inputs := rest, clock := sampleOf s p }) (p := p)
    (State.throttlePeriod_eq_some hthrottle hperiod) hwait
  refine ⟨_, (step_eq_cpuCadence hs hn hq).trans hidle, State.toNat_dt_beforeCpu _ p, State.toNat_st_beforeCpu _ p, ?_⟩
  rw [State.beforeCpu_eq]

end Sys2Proof.Safety
end

section
/-! SUPPORT. Reset: what an accepted configuration gives the session, that no other opens one, and the values every
session starts from (70_reset_and_hazards.md R240, R241, 10_state.md R44, 60_exceptions.md R227). -/

namespace Sys2Proof.Machine

variable {s : State}

theorem State.reg_eq_zero_of_v_eq (h : s.v = Vector.replicate 16 0) (r : Reg) : s.reg r = 0 := by
  rw [State.reg, h]
  exact Vector.getElem_replicate _

theorem State.pressed_eq_false_of_keys_eq (h : s.keys = Vector.replicate 16 false) (v : Byte) :
    s.pressed v = false := by
  unfold State.pressed
  split
  · rw [h]
    exact Vector.getElem_replicate _
  · rfl

/-! ## The configuration of a session -/

theorem throttle_sessionConfig (d : Dialect) (f : ConfigFields) (p : SessionParams) :
    (sessionConfig d f p).throttle = true ↔ f.enableDelay ≠ 0 := bne_iff_ne

theorem cpuPeriod_sessionConfig_of_zero {f : ConfigFields} (h : f.frequencyCpu = 0) (d : Dialect) (p : SessionParams) :
    (sessionConfig d f p).cpuPeriod = none := if_neg (by omega)

theorem cpuPeriod_sessionConfig_of_pos {f : ConfigFields} (h : 0 < f.frequencyCpu) (d : Dialect) (p : SessionParams) :
    (sessionConfig d f p).cpuPeriod = some (max 1 (p.clockHz / f.frequencyCpu.toNat)) := if_pos h

theorem timerPeriod_sessionConfig_default {p : SessionParams} (h : p.timerPeriod = none) (d : Dialect)
    (f : ConfigFields) : (sessionConfig d f p).timerPeriod = max 1 (p.clockHz / 60) := by
  simp only [sessionConfig, h]
  rfl

/-! ## The check of a configuration -/

theorem dialectOfMode_eq_some {mode : BitVec 8} {d : Dialect} (h : dialectOfMode mode = some d) :
    (mode = 1 ∧ d = .cosmacvip) ∨ (mode = 2 ∧ d = .chip48) ∨ (mode = 4 ∧ d = .superchip) := by
  unfold dialectOfMode at h
  split at h
  next hmode => exact .inl ⟨hmode, (Option.some.inj h).symm⟩
  split at h
  next hmode => exact .inr (.inl ⟨hmode, (Option.some.inj h).symm⟩)
  split at h
  next hmode => exact .inr (.inr ⟨hmode, (Option.some.inj h).symm⟩)
  cases h

end Sys2Proof.Machine

namespace Sys2Proof.Safety

open Sys2Proof.Machine

/-- Only a configuration that R241 accepts opens a session. -/
theorem accepts_of_openSession {f : ConfigFields} {p : SessionParams} {c : SessionConfig}
    (h : openSession f p = .ok c) : ∃ d, Accepts f d := by
  unfold openSession at h
  split at h
  · cases h
  next d hmode =>
    split at h
    · cases h
    next hcpu =>
      split at h
      · cases h
      next hframe => exact ⟨d, dialectOfMode_eq_some hmode, Int.not_lt.1 hcpu, Int.not_le.1 hframe⟩

/-! ## The statements -/

/-- Settles O26: the session of an accepted configuration, opened on the initial state. -/
theorem acceptedResetStartsASession : Obligations.AcceptedResetStartsASession := by
  intro s r rest d hinputs haccepts
  have hstep := step_reset hinputs
  rw [resetSession_of_accepts haccepts] at hstep
  exact ⟨_, hstep, rfl, State.reg_eq_zero_of_v_eq rfl, rfl, rfl, rfl, rfl, rfl, Display.pixel_clear,
    State.pressed_eq_false_of_keys_eq rfl, rfl, rfl, rfl, rfl, rfl, rfl, holdsFontAndRom_of_mem_eq rfl, rfl, rfl, rfl,
    throttle_sessionConfig d r.fields r.params, (cpuPeriod_sessionConfig_of_zero · d r.params),
    (cpuPeriod_sessionConfig_of_pos · d r.params), (timerPeriod_sessionConfig_default · d r.fields), rfl, rfl, rfl⟩

/-- Settles O27: a session would only open on an accepted configuration, so the check records a bad field. -/
theorem rejectedResetFaults : Obligations.RejectedResetFaults := by
  intro s r rest hinputs hbad
  have hstep := step_reset hinputs
  unfold State.resetSession at hstep
  cases hopen : openSession r.fields r.params with
  | error field =>
    rw [hopen] at hstep
    exact ⟨_, field, hstep, rfl⟩
  | ok c =>
    obtain ⟨d, hmode, hcpu, hframe⟩ := accepts_of_openSession hopen
    obtain ⟨h1, h2, h4⟩ | hneg | hnonpos := hbad
    · obtain ⟨hm, -⟩ | ⟨hm, -⟩ | ⟨hm, -⟩ := hmode
      · exact absurd hm h1
      · exact absurd hm h2
      · exact absurd hm h4
    · omega
    · omega

end Sys2Proof.Safety
end

section
/-! SUPPORT. A jump to itself: its cycle changes nothing, so a pass that runs it does the scheduler's work only
(70_reset_and_hazards.md R249, 40_flow.md R103, 60_exceptions.md R220, R224). -/

namespace Sys2Proof.Safety

open Sys2Proof.Machine

variable {s : State}

/-- The word at PC is a jump to PC itself. -/
structure AtSelfJump (s : State) (nnn : BitVec 12) : Prop where
  target  : s.pc = addressOf nnn
  inRange : s.pc.toNat + 1 ≤ 4095
  word    : decodeWord (wordAtPc s) = .jp nnn

/-- The jump takes back the PC advance of its fetch. -/
theorem cycle_of_atSelfJump {nnn : BitVec 12} (h : AtSelfJump s nnn) : cycle s = .next s := by
  have hjump : exec (.jp nnn) (s.setPc (s.pc + 2)) = .next (s.setPc (addressOf nnn)) := rfl
  rw [cycle_of_le h.inRange, h.word, hjump, ← h.target]
  rfl

/-- Edges, timer and frame work move neither PC nor memory. -/
theorem AtSelfJump.beforeCpu {nnn : BitVec 12} (h : AtSelfJump s nnn) (p : PassInput) :
    AtSelfJump (s.beforeCpu p) nnn := by
  rw [s.beforeCpu_eq p]
  exact ⟨h.target, h.inRange, h.word⟩

/-- A due CPU cadence at a jump to itself stamps `lastCpu` where the core is throttled, and does nothing else. -/
theorem cpuCadence_of_atSelfJump {nnn : BitVec 12} {now : Nat} (h : AtSelfJump s nnn)
    (hdue : ∀ period, s.throttlePeriod = some period → period ≤ now - s.lastCpu) :
    cpuCadence now s = .next { s with lastCpu := if s.throttlePeriod.isSome then now else s.lastCpu } := by
  rw [cpuCadence_of_due hdue, s.stampCpu_eq]
  exact cycle_of_atSelfJump (nnn := nnn) ⟨h.target, h.inRange, h.word⟩

/-- Settles O21: the step answers the state before the CPU cadence, stamped. -/
theorem selfJumpKeepsRunning : Obligations.SelfJumpKeepsRunning := by
  intro s p rest nnn hs hn hq hdue hpc hrange hword
  have hjump : AtSelfJump { s with inputs := rest, clock := sampleOf s p } nnn := ⟨hpc, hrange, hword⟩
  have hcpu := cpuCadence_of_atSelfJump (now := sampleOf s p) (hjump.beforeCpu p) (by
    rw [State.beforeCpu_throttlePeriod, State.beforeCpu_lastCpu]
    exact hdue)
  refine ⟨_, (step_eq_cpuCadence hs hn hq).trans hcpu, ?_, (State.beforeCpu_status _ p).trans hs,
    State.toNat_dt_beforeCpu _ p, State.toNat_st_beforeCpu _ p, State.beforeCpu_frames _ p, ?_,
    fun r _ => State.reg_beforeCpu _ p r, State.readByte_beforeCpu _ p⟩ <;> rw [State.beforeCpu_eq]

end Sys2Proof.Safety
end
